-- ==== Sys2Proof/Word.lean ====
section
/-! DEFINITION. The word type of the block: every stored or transported quantity is one byte (20_memory.md R54). -/

namespace Sys2Proof

/-- Eight bits; bit 0 is the least significant (00_scope.md R10). -/
abbrev Byte := BitVec 8

end Sys2Proof
end

