-- ==== Sys2Proof/Syntax.lean ====
section
/-! DEFINITION. The operations of the block, one constructor per row of spec/opcode_table.json (00_scope.md R3). -/

namespace Sys2Proof

/-- The operation set. The four input-unit commands carry the ignored bits 7:2 of their unit, so that no bit of an
encoding is lost (30_encoding.md R70, R72; log entry 14). The internal operations carry the operands of their rules. -/
inductive Instr where
  /-- `ACCEPT.D0`: data bit 0, no sync (42_assembler.md R152). -/
  | acceptD0 (rsvd : BitVec 6)
  /-- `ACCEPT.D1`: data bit 1, no sync (42_assembler.md R153). -/
  | acceptD1 (rsvd : BitVec 6)
  /-- `ACCEPT.S0`: data bit 0 with the sync flag (42_assembler.md R154). -/
  | acceptS0 (rsvd : BitVec 6)
  /-- `ACCEPT.S1`: data bit 1 with the sync flag (42_assembler.md R155). -/
  | acceptS1 (rsvd : BitVec 6)
  /-- `CRC8.UPDATE(reg, byte)` (40_crc8.md R101). -/
  | crc8Update (reg byte : Byte)
  /-- `CRC8.RUN(data)` (40_crc8.md R102). -/
  | crc8Run (data : List Byte)
  /-- `FB.RESET()` (41_framebuffer.md R121). -/
  | fbReset
  /-- `FB.APPEND_BIT(bit)` (41_framebuffer.md R122). The operand is a byte so that a value outside 0 and 1, which
  `BAD_BIT` is about, can be written down (R132; log entry 9). -/
  | fbAppendBit (bit : Byte)
  /-- `FB.CURRENT_LENGTH()` (41_framebuffer.md R129). -/
  | fbCurrentLength
  /-- `FB.IS_HEADER_KNOWN()` (41_framebuffer.md R130). -/
  | fbIsHeaderKnown
  /-- `FA.EVAL_COMPLETION()` (42_assembler.md R159). -/
  | faEvalCompletion
  /-- `FA.FLUSH()` (42_assembler.md R165). -/
  | faFlush
  /-- `SINK.DELIVER(payload)` (43_framesink.md R191). -/
  | sinkDeliver (payload : List Byte)
  /-- `TRACE.EMIT(bytes)` (43_framesink.md R194). -/
  | traceEmit (bytes : List Byte)
  /-- `RESET(cfg)` (70_reset_and_hazards.md R240). -/
  | reset (cfg : Byte)
  deriving DecidableEq, Repr

end Sys2Proof
end

