-- ==== Sys2Proof/WellFormed.lean ====
section
/-! DEFINITION. The operand domains the operation rules give, as a decidable check on the syntax. -/

namespace Sys2Proof

/-- The legal CFG words (30_encoding.md R76). -/
def legalCfgWords : List Byte := [0x00#8, 0x02#8, 0x05#8, 0x07#8]

/-- An operation whose operands are in the domain its rule gives. The meanings run outside these domains too: as the
spec says where it says so (`BAD_BIT`, a refused CFG), and by the rule's own pseudocode otherwise (log entry 20). -/
def Instr.wf : Instr → Bool
  | .acceptD0 _ => true
  | .acceptD1 _ => true
  | .acceptS0 _ => true
  | .acceptS1 _ => true
  | .crc8Update _ _ => true
  | .crc8Run data => decide (data.length ≤ 2047)
  | .fbReset => true
  | .fbAppendBit bit => bit == 0#8 || bit == 1#8
  | .fbCurrentLength => true
  | .fbIsHeaderKnown => true
  | .faEvalCompletion => true
  | .faFlush => true
  | .sinkDeliver payload => decide (payload.length ≤ 2047)
  | .traceEmit bytes => decide (1 ≤ bytes.length ∧ bytes.length ≤ 2048)
  | .reset cfg => legalCfgWords.contains cfg

end Sys2Proof
end

