-- ==== Sys2Proof/Decode.lean ====
section
/-! DEFINITION. Decoding of input units, total on every byte, and the encoder written from the same table
(30_encoding.md R70, R71, R73, R77). -/

namespace Sys2Proof

/-- Field `V` of a unit: bit 0, the recovered data bit (30_encoding.md R70). -/
def unitV (u : Byte) : Bool := u.getLsbD 0

/-- Field `S` of a unit: bit 1, the sync flag (30_encoding.md R70). -/
def unitS (u : Byte) : Bool := u.getLsbD 1

/-- Field `RSVD` of a unit: bits 7:2, ignored by the block (30_encoding.md R70, R72). -/
def unitRsvd (u : Byte) : BitVec 6 := u.extractLsb' 2 6

/-- The unit with the given fields (30_encoding.md R70). -/
def mkUnit (rsvd : BitVec 6) (s v : Bool) : Byte := rsvd ++ BitVec.ofBool s ++ BitVec.ofBool v

/-- The command a unit selects (30_encoding.md R71): no unit is illegal. -/
def decodeUnit (u : Byte) : Instr :=
  match unitS u, unitV u with
  | false, false => .acceptD0 (unitRsvd u)
  | false, true => .acceptD1 (unitRsvd u)
  | true, false => .acceptS0 (unitRsvd u)
  | true, true => .acceptS1 (unitRsvd u)

/-- Why a byte stream gives no command. -/
inductive DecodeError where
  /-- The stream holds no unit; it is the only rejection, since every unit decodes (30_encoding.md R71). -/
  | noUnit
  deriving DecidableEq, Repr

/-- The first command of a raw unit stream, one byte per unit, and the rest of the stream (30_encoding.md R81, R82). -/
def decode : List Byte → Except DecodeError (Instr × List Byte)
  | [] => .error .noUnit
  | u :: rest => .ok (decodeUnit u, rest)

/-- The commands of a whole raw unit stream, in stream order. -/
def decodeStream (us : List Byte) : List Instr := us.map decodeUnit

/-- The unit of a command; the internal operations have none (30_encoding.md R77). -/
def encode : Instr → Option Byte
  | .acceptD0 rsvd => some (mkUnit rsvd false false)
  | .acceptD1 rsvd => some (mkUnit rsvd false true)
  | .acceptS0 rsvd => some (mkUnit rsvd true false)
  | .acceptS1 rsvd => some (mkUnit rsvd true true)
  | .crc8Update _ _ => none
  | .crc8Run _ => none
  | .fbReset => none
  | .fbAppendBit _ => none
  | .fbCurrentLength => none
  | .fbIsHeaderKnown => none
  | .faEvalCompletion => none
  | .faFlush => none
  | .sinkDeliver _ => none
  | .traceEmit _ => none
  | .reset _ => none

/-- The raw unit stream of a list of commands, where each has a unit. -/
def encodeStream : List Instr → Option (List Byte)
  | [] => some []
  | i :: rest =>
    match encode i, encodeStream rest with
    | some u, some us => some (u :: us)
    | some _, none => none
    | none, some _ => none
    | none, none => none

/-- The unit that a word of `nbits` bits numbered as spec/opcode_table.json numbers them stands for. -/
def tableUnit (nbits w : Nat) : Byte := BitVec.ofNat 8 (w % 2 ^ nbits)

/-- What the decoder reads from that word. -/
def decodeTableWord (nbits w : Nat) : Option Instr :=
  match decode [tableUnit nbits w] with
  | .ok (i, _) => some i
  | .error _ => none

end Sys2Proof
end

