-- ==== Sys2Proof/Config.lean ====
section
/-! DEFINITION. What is fixed for the hardware, and the one value the spec leaves open (00_scope.md R7, R8, R9). -/

namespace Sys2Proof

/-- `MAX_FRAME_BYTES`, the size of the frame-buffer space (00_scope.md R7, 20_memory.md R50). -/
def Config.maxFrameBytes : Nat := 2048

/-- `CRC8_INIT`, the CRC register at the start of every run (00_scope.md R9, 90_conflicts.md C3). -/
def Config.crc8Init : Byte := 0x00#8

/-- `CRC8_TABLE`, written `T`: 256 bytes whose values no source gives (00_scope.md R8, 91_not_in_source.md N1).
It has no body, so nothing can be proved of its values (log entry 4). -/
opaque Config.crc8Table : Byte → Byte

/-- The CFG word of the constant reset state. DESIGN CHOICE (log entry 5): the spec has the environment supply it. -/
def Config.resetCfg : Byte := 0x00#8

end Sys2Proof
end

