-- ==== Sys2Proof/Machine/State.lean ====
section
/-! DEFINITION. The state of one block instance as plain data (10_state.md R20), what stands at its boundary, the
reasons a step can stop, and the state after reset. -/

namespace Sys2Proof.Machine

/-- The assembler's mode (10_state.md R21). -/
inductive Mode where
  | idle
  | assembling
  deriving DecidableEq, Repr

/-- The one-bit encoding of the mode: `Idle = 0`, `Assembling = 1` (10_state.md R21). -/
def Mode.code : Mode → BitVec 1
  | .idle => 0#1
  | .assembling => 1#1

/-- The frame-buffer space: (index, byte) cells with strictly rising indices and no cell holding 0x00, the value an
unlisted index reads as, which is what RESET leaves everywhere (20_memory.md R50, 10_state.md R39; log entry 12). -/
abbrev Memory := List Host.Cell

/-- `S.fb` (10_state.md R27 to R30). Cursors and lengths are exact natural numbers (00_scope.md R11). -/
structure FrameBuffer where
  /-- `bytes`, the 2048 bytes. -/
  bytes : Memory
  /-- `bit_cursor`, the position within the byte being assembled. -/
  bitCursor : Nat
  /-- `byte_cursor`, the index of the byte being assembled. -/
  byteCursor : Nat
  /-- `expected_len`, unset or the total frame length in bytes. -/
  expectedLen : Option Nat
  deriving DecidableEq, Repr

/-- `S.fb` as `FB.RESET` leaves it (41_framebuffer.md R121). -/
def FrameBuffer.cleared : FrameBuffer := ⟨[], 0, 0, none⟩

/-- An output event (20_memory.md R58). -/
inductive Event where
  /-- `TRACE(bytes)` (43_framesink.md R194). -/
  | trace (bytes : List Byte)
  /-- `DELIVER(payload)`, standing for the message channel and the echo channel (43_framesink.md R191). -/
  | deliver (payload : List Byte)
  deriving DecidableEq, Repr

/-- The value an operation returns to whoever ran it. -/
inductive Returned where
  /-- The operation returns no value. -/
  | nothing
  /-- A CRC value (40_crc8.md R101, R102). -/
  | byte (b : Byte)
  /-- A buffer index (41_framebuffer.md R129). -/
  | index (n : Nat)
  /-- A truth value (41_framebuffer.md R130). -/
  | flag (b : Bool)
  /-- A produced-byte count (42_assembler.md R172). -/
  | count (n : Nat)
  deriving DecidableEq, Repr

/-- What the host presents next (70_reset_and_hazards.md R250). -/
inductive Stimulus where
  /-- One input unit, for one step. -/
  | unit (u : Byte)
  /-- A reset with a CFG word. -/
  | reset (cfg : Byte)
  deriving DecidableEq, Repr

/-- The mark of a model fault, with its recorded value (60_exceptions.md R213). -/
inductive FaultMark where
  /-- Raised by `FB.APPEND_BIT` for a bit that is neither 0 nor 1; no unit reaches it (R214). -/
  | badBit (value : Byte)
  /-- Raised by `FB.APPEND_BIT` when `byte_cursor` passes 2047; no run reaches it (R215). Records `S.pos`. -/
  | cursorBound (pos : Nat)
  deriving DecidableEq, Repr

/-- The code of a mark (60_exceptions.md R213). -/
def FaultMark.code : FaultMark → Nat
  | .badBit _ => 1
  | .cursorBound _ => 2

/-- Why an operation or a step is refused. -/
inductive Refusal where
  /-- Answered by `exec` for an operation that has no meaning yet. Safe. -/
  | notModelled (mnemonic : String)
  /-- Answered by `RESET` for a CFG word that is not legal: the spec refuses it (30_encoding.md R76). Safe. -/
  | illegalConfig (cfg : Byte)
  /-- Answered by `step` when the host presents nothing: no step exists without a unit (93_implementation_defined.md I16;
  log entry 2). Safe. -/
  | awaitingUnit
  deriving DecidableEq, Repr

/-- The state `S` of one block instance (10_state.md R20): `cfg`, `mode`, `fb`, `pos` and the fault mark. The last four
fields are the model's own, the block's boundary: what the host will present, and what the last operation returned and
handed out (R40; log entries 1 and 3). -/
structure State where
  /-- `S.cfg`, the CFG register (10_state.md R22, R23). -/
  cfg : Byte
  /-- `S.mode` (10_state.md R21). -/
  mode : Mode
  /-- `S.fb` (10_state.md R27 to R30). -/
  fb : FrameBuffer
  /-- `S.pos`, the units accepted since reset (10_state.md R32). -/
  pos : Nat
  /-- `S.fault`, the sticky fault mark (60_exceptions.md R213). -/
  fault : Option FaultMark
  /-- What the host will present, next first. -/
  inputs : List Stimulus
  /-- What the last operation returned. -/
  returned : Returned
  /-- The ordered output list of the last operation (10_state.md R40). -/
  events : List Event
  /-- Every event handed to the environment so far, oldest first (20_memory.md R58, R62). -/
  sent : List Event
  deriving DecidableEq, Repr

/-- Why the machine stops with a fault. -/
inductive Fault where
  /-- Answered by `FB.APPEND_BIT`, and by the four `ACCEPT` commands through it, where it raises a model fault: the run ends
  (60_exceptions.md R218), and `s` is the fault state entered, which carries the mark (00_scope.md R13, 60_exceptions.md
  R213; log entry 7). Safe: no unit from a well-formed state reaches it, and nothing is claimed of what follows. -/
  | raised (s : State)
  /-- Answered in a state that carries a fault mark by the four `ACCEPT` commands, since such a state has no `ACCEPT` step,
  and by a step or a run that would end there, since such a state is never a final state (60_exceptions.md R213; log entry
  7). Safe: nothing is claimed of what follows. -/
  | marked (m : FaultMark)
  /-- Answered by `FA.FLUSH`, and by `FA.EVAL_COMPLETION` through it, run on its own in a state whose `byte_cursor` names
  a byte the buffer does not have (20_memory.md R50; log entry 11). Safe: no `ACCEPT` reaches it. -/
  | noSuchByte (index : Nat)
  deriving DecidableEq, Repr

/-- The machine right after reset (10_state.md R39), with the configuration log entry 5 names and no program. -/
def State.reset : State where
  cfg := Config.resetCfg
  mode := .idle
  fb := FrameBuffer.cleared
  pos := 0
  fault := none
  inputs := []
  returned := .nothing
  events := []
  sent := []

end Sys2Proof.Machine
end

