-- ==== Sys2Proof/Machine/Ops.lean ====
section
/-! DEFINITION. The named operations over the frame-buffer space, the outputs, the fault mark and the input queue. -/

namespace Sys2Proof.Machine

/-- The outcome of an operation on the block. -/
abbrev Result := Host.Outcome State Fault Refusal

/-- What a byte that no cell lists reads as: 0x00, the reset contents (10_state.md R39). -/
def Memory.unlisted : Byte := 0x00#8

/-- `FB[i]`: one byte of the space (00_scope.md R13). -/
def Memory.read : Memory → Nat → Byte
  | [], _ => Memory.unlisted
  | (b, w) :: m, a => if a = b then w else Memory.read m a

/-- `FB[i] <- v`: keeps the canonical form. -/
def Memory.write : Memory → Nat → Byte → Memory
  | [], a, v => if v = Memory.unlisted then [] else [(a, v)]
  | (b, w) :: m, a, v =>
    if a < b then (if v = Memory.unlisted then (b, w) :: m else (a, v) :: (b, w) :: m)
    else if a = b then (if v = Memory.unlisted then m else (a, v) :: m)
    else (b, w) :: Memory.write m a v

/-- Whether every index of the memory is above a bound, and rising, with no cell holding the unlisted value. -/
def Memory.wfAbove : Option Nat → Memory → Bool
  | _, [] => true
  | lo, (b, w) :: m =>
    (match lo with
      | none => true
      | some l => decide (l < b)) && (w != Memory.unlisted) && Memory.wfAbove (some b) m

/-- The canonical form: indices strictly rising, no cell equal to what an unlisted index reads as. -/
def Memory.wf (m : Memory) : Bool := Memory.wfAbove none m

/-- Every listed index is one the space has (20_memory.md R50). -/
def Memory.inSpace (m : Memory) : Bool := m.all fun c => decide (c.1 < Config.maxFrameBytes)

/-- The `n` bytes from index `a` on, in increasing index order (00_scope.md R12): `bytes[a .. a+n-1]`. -/
def Memory.span (m : Memory) (a n : Nat) : List Byte := (List.range' a n).map m.read

/-- The start of an operation run from outside: nothing returned and nothing handed out yet. -/
def State.begin (s : State) : State := { s with returned := .nothing, events := [] }

/-- The start of an `ACCEPT` step: one more unit accepted (10_state.md R32). -/
def State.takeUnit (s : State) : State := { s with pos := s.pos + 1, returned := .nothing, events := [] }

/-- The end of an operation: the value it returns. -/
def State.give (s : State) (r : Returned) : State := { s with returned := r }

/-- `emit E`: one event at the end of the operation's output list, handed to the environment (00_scope.md R13,
20_memory.md R58). -/
def State.emit (s : State) (e : Event) : State := { s with events := s.events ++ [e], sent := s.sent ++ [e] }

/-- The fault state: the state with the mark, which keeps the first mark it got (60_exceptions.md R213; log entry 8). -/
def State.mark (s : State) (m : FaultMark) : State :=
  { s with fault := match s.fault with
      | none => some m
      | some k => some k }

/-- `raise Fault(code)`: enters the fault state (00_scope.md R13), which ends the run: a marked state is no next state of
anything that raises (60_exceptions.md R213, R218; log entry 7). The block has no other exception and no return from one but
`RESET`. -/
def State.raise (s : State) (m : FaultMark) : Result := .fault (.raised (s.mark m))

/-- The rest of a pseudocode after a call that may stop: a stop abandons it. -/
def Result.andThen (r : Result) (k : State → Result) : Result :=
  match r with
  | .next s => k s
  | .fault f => .fault f
  | .refused f => .refused f

/-- Where a run ends: an unmarked state is final, and a marked state never is (60_exceptions.md R213). -/
def State.final (s : State) : Result :=
  match s.fault with
  | none => .next s
  | some m => .fault (.marked m)

/-- The produced-byte count of the last operation, 0 where it returned none. -/
def State.count (s : State) : Nat :=
  match s.returned with
  | .count n => n
  | .nothing => 0
  | .byte _ => 0
  | .index _ => 0
  | .flag _ => 0

/-- Takes the host's next stimulus off the queue as an operation: a unit is decoded, a reset is `RESET`
(70_reset_and_hazards.md R250; log entries 1 and 2). With nothing presented an unmarked state waits for a unit, and a marked
one does not wait: it is never a final state (60_exceptions.md R213). -/
def fetch (s : State) : Host.Outcome (Instr × State) Fault Refusal :=
  match s.inputs with
  | [] =>
    match s.fault with
    | none => .refused .awaitingUnit
    | some m => .fault (.marked m)
  | .unit u :: rest => .next (decodeUnit u, { s with inputs := rest })
  | .reset cfg :: rest => .next (.reset cfg, { s with inputs := rest })

end Sys2Proof.Machine
end

