-- ==== Sys2Proof/Machine/Crc8.lean ====
section
/-! DEFINITION. The CRC-8 engine: a pure function of its operands and the table (40_crc8.md). -/

namespace Sys2Proof.Machine

/-- `CRC8.UPDATE(reg, byte)`: the table at `reg ^ byte` (40_crc8.md R101). -/
def crc8Update (reg byte : Byte) : Byte := Config.crc8Table (reg ^^^ byte)

/-- `CRC8.RUN(data)`: the left fold of the update over the bytes in order, from `CRC8_INIT`; no final XOR
(40_crc8.md R102, R104). The accumulator of the fold is `crc_reg` (10_state.md R31). -/
def crc8Run (data : List Byte) : Byte := data.foldl crc8Update Config.crc8Init

/-- `CRC8.UPDATE` run on its own: returns the table step, writes nothing (40_crc8.md R101). -/
def execCrc8Update (reg byte : Byte) (s : State) : Result := .next (s.begin.give (.byte (crc8Update reg byte)))

/-- `CRC8.RUN` run on its own: returns the checksum, writes nothing (40_crc8.md R102). -/
def execCrc8Run (data : List Byte) (s : State) : Result := .next (s.begin.give (.byte (crc8Run data)))

end Sys2Proof.Machine
end

