-- ==== Sys2Proof/Machine/Operands.lean ====
section
/-! DEFINITION. Operand assembly: the two operands of a unit (30_encoding.md R73) and the fields of the CFG word
(10_state.md R23). -/

namespace Sys2Proof.Machine

/-- `bit = zext_1(unit[0])`, as the byte 0 or 1 (30_encoding.md R73). -/
def unitBit (u : Byte) : Byte := u &&& 0x01#8

/-- `sync_flag = (unit[1] == 1)` (30_encoding.md R73). -/
def unitSync (u : Byte) : Bool := (u &&& 0x02#8) != 0#8

/-- A data bit as the byte 0 or 1. -/
def bitByte (b : Bool) : Byte := if b then 1#8 else 0#8

/-- `crc_enabled`, CFG bit 0 (10_state.md R24). -/
def crcEnabled (cfg : Byte) : Bool := cfg.getLsbD 0

/-- `verbose`, CFG bit 1 (10_state.md R25). -/
def verbose (cfg : Byte) : Bool := cfg.getLsbD 1

/-- `drop_crc`, CFG bit 2, which no rule of the block reads after reset (10_state.md R26). -/
def dropCrc (cfg : Byte) : Bool := cfg.getLsbD 2

/-- The reserved field, CFG bits 7:3 (10_state.md R23). -/
def cfgReserved (cfg : Byte) : BitVec 5 := cfg.extractLsb' 3 5

/-- A legal configuration: reserved bits 0 and `drop_crc = crc_enabled` (30_encoding.md R76). -/
def legalCfg (cfg : Byte) : Bool := cfgReserved cfg == 0#5 && dropCrc cfg == crcEnabled cfg

end Sys2Proof.Machine
end

