-- ==== Sys2Proof/Machine/Flags.lean ====
section
/-! DEFINITION. The status flags, computed and never stored (10_state.md R35), the two completion conditions
(42_assembler.md R160, R161) and the labels of step outcomes (60_exceptions.md R212). -/

namespace Sys2Proof.Machine

/-- `assembling`: the mode is `Assembling` (10_state.md R35). -/
def State.assembling (s : State) : Bool := s.mode == .assembling

/-- `header_known`: `expected_len` is set (10_state.md R35). -/
def FrameBuffer.headerKnown (fb : FrameBuffer) : Bool := fb.expectedLen.isSome

/-- `byte_done`: the current byte has just received its eighth bit (10_state.md R35). -/
def FrameBuffer.byteDone (fb : FrameBuffer) : Bool := fb.bitCursor == 8

/-- `at_limit`: the current byte is the last of the buffer (10_state.md R35). -/
def FrameBuffer.atLimit (fb : FrameBuffer) : Bool := fb.byteCursor == Config.maxFrameBytes - 1

/-- Normal completion: a byte is done, and it is the last of a known, nonzero length (42_assembler.md R160). -/
def FrameBuffer.normalCompletion (fb : FrameBuffer) : Bool :=
  fb.byteDone && fb.headerKnown &&
    match fb.expectedLen with
    | none => false
    | some n => n != 0 && fb.byteCursor == n - 1

/-- Forced completion: the last byte of the buffer is reached (42_assembler.md R161). -/
def FrameBuffer.forcedCompletion (fb : FrameBuffer) : Bool := fb.atLimit

/-- The labels of the outcomes of an `ACCEPT` step, which no port carries (60_exceptions.md R212). -/
inductive StepLabel where
  | discard
  | start
  | continue
  | accepted
  | rejected
  | forcedAccepted
  | forcedRejected
  deriving DecidableEq, Repr

/-- The code of a label (60_exceptions.md R212). -/
def StepLabel.code : StepLabel → Nat
  | .discard => 0
  | .start => 1
  | .continue => 2
  | .accepted => 3
  | .rejected => 4
  | .forcedAccepted => 5
  | .forcedRejected => 6

end Sys2Proof.Machine
end

