-- ==== Sys2Proof/Machine/FrameBuffer.lean ====
section
/-! DEFINITION. The frame buffer: reset, bit-granular append with the header latch, and its two queries
(41_framebuffer.md). -/

namespace Sys2Proof.Machine

/-- `FB.RESET`: every byte 0, cursors 0, `expected_len` unset (41_framebuffer.md R121). -/
def clearBuffer (s : State) : State := { s with fb := FrameBuffer.cleared }

/-- Step 1 of `FB.APPEND_BIT`: a completed byte moves on to the next (41_framebuffer.md R123). -/
def advanceByte (fb : FrameBuffer) : FrameBuffer :=
  if fb.bitCursor = 8 then { fb with bitCursor := 0, byteCursor := fb.byteCursor + 1 } else fb

/-- The total frame length a header declares, in exact arithmetic (41_framebuffer.md R125). -/
def declaredLen (crc : Bool) (header : Byte) : Nat := header.toNat + (if crc then 1 else 0) + 1

/-- Step 2, the header latch: about to start the second byte with the length not yet known (41_framebuffer.md R124). -/
def latchHeader (crc : Bool) (fb : FrameBuffer) : FrameBuffer :=
  if fb.byteCursor = 1 ∧ fb.bitCursor = 0 ∧ fb.expectedLen = none then
    { fb with expectedLen := some (declaredLen crc (fb.bytes.read 0)) }
  else fb

/-- The value step 3 writes: the first bit overwrites the byte, a later one shifts in from the right
(41_framebuffer.md R126). -/
def bitWritten (fb : FrameBuffer) (bit : Byte) : Byte :=
  if fb.bitCursor = 0 then bit else (fb.bytes.read fb.byteCursor <<< 1) ||| bit

/-- Steps 3 and 4: the bit is written MSB-first and counted (41_framebuffer.md R126, R127). -/
def pushBit (bit : Byte) (fb : FrameBuffer) : FrameBuffer :=
  { fb with bytes := fb.bytes.write fb.byteCursor (bitWritten fb bit), bitCursor := fb.bitCursor + 1 }

/-- The buffer after the four steps, in their order (41_framebuffer.md R122). -/
def appended (crc : Bool) (bit : Byte) (fb : FrameBuffer) : FrameBuffer := pushBit bit (latchHeader crc (advanceByte fb))

/-- `FB.APPEND_BIT(bit)` (41_framebuffer.md R122), its two model faults included. A raise leaves what the pseudocode
wrote before it (log entry 10). -/
def appendBit (bit : Byte) (s : State) : Result :=
  if bit = 0#8 ∨ bit = 1#8 then
    if (advanceByte s.fb).byteCursor ≤ Config.maxFrameBytes - 1 then
      .next { s with fb := appended (crcEnabled s.cfg) bit s.fb }
    else State.raise { s with fb := advanceByte s.fb } (.cursorBound s.pos)
  else s.raise (.badBit bit)

/-- `FB.CURRENT_LENGTH`: the index of the last byte touched, not a count (41_framebuffer.md R129). -/
def currentLength (fb : FrameBuffer) : Nat := fb.byteCursor

/-- `FB.IS_HEADER_KNOWN` (41_framebuffer.md R130). -/
def isHeaderKnown (fb : FrameBuffer) : Bool := fb.headerKnown

/-- `FB.RESET` run on its own (41_framebuffer.md R121). -/
def execFbReset (s : State) : Result := .next (clearBuffer s.begin)

/-- `FB.APPEND_BIT` run on its own (41_framebuffer.md R122). -/
def execFbAppendBit (bit : Byte) (s : State) : Result := appendBit bit s.begin

/-- `FB.CURRENT_LENGTH` run on its own (41_framebuffer.md R129). -/
def execFbCurrentLength (s : State) : Result := .next (s.begin.give (.index (currentLength s.fb)))

/-- `FB.IS_HEADER_KNOWN` run on its own (41_framebuffer.md R130). -/
def execFbIsHeaderKnown (s : State) : Result := .next (s.begin.give (.flag (isHeaderKnown s.fb)))

end Sys2Proof.Machine
end

