-- ==== Sys2Proof/Machine/Sink.lean ====
section
/-! DEFINITION. The delivery interface and the trace at the block's boundary, and the views of what was handed over
(43_framesink.md). -/

namespace Sys2Proof.Machine

/-- `SINK.DELIVER(payload)`: one event for both channels (43_framesink.md R191). -/
def deliver (payload : List Byte) (s : State) : State := s.emit (.deliver payload)

/-- `TRACE.EMIT(bytes)` (43_framesink.md R194). -/
def emitTrace (bytes : List Byte) (s : State) : State := s.emit (.trace bytes)

/-- The messages offered to the FIFO, one per delivery, in order; what the FIFO keeps is not the block's
(43_framesink.md R192). -/
def messagesOffered : List Event → List (List Byte)
  | [] => []
  | .deliver p :: es => p :: messagesOffered es
  | .trace _ :: es => messagesOffered es

/-- The echo byte stream: the delivered payloads one after another, with no separators (43_framesink.md R193). -/
def echoStream (es : List Event) : List Byte := (messagesOffered es).flatten

/-- The traced byte sequences, in order (43_framesink.md R194). -/
def tracesEmitted : List Event → List (List Byte)
  | [] => []
  | .trace b :: es => b :: tracesEmitted es
  | .deliver _ :: es => tracesEmitted es

/-- `SINK.DELIVER` run on its own (43_framesink.md R191). -/
def execSinkDeliver (payload : List Byte) (s : State) : Result := .next (deliver payload s.begin)

/-- `TRACE.EMIT` run on its own (43_framesink.md R194). -/
def execTraceEmit (bytes : List Byte) (s : State) : Result := .next (emitTrace bytes s.begin)

end Sys2Proof.Machine
end

