-- ==== Sys2Proof/Machine/Assembler.lean ====
section
/-! DEFINITION. The frame assembler: the flush, the completion evaluation, and the four input-unit commands
(42_assembler.md). -/

namespace Sys2Proof.Machine

/-- Whether a completed frame is accepted: no CRC check, or the computed CRC over `bytes[0 .. byte_cursor-1]` equals the
last byte (42_assembler.md R167, R170; 90_conflicts.md C2). -/
def frameAccepted (cfg : Byte) (fb : FrameBuffer) : Bool :=
  !crcEnabled cfg || crc8Run (fb.bytes.span 0 (currentLength fb)) == fb.bytes.read (currentLength fb)

/-- `end`: the index of the last payload byte, the CRC byte excluded when CRC is enabled (42_assembler.md R169, R170;
log entry 16). -/
def payloadEnd (cfg : Byte) (fb : FrameBuffer) : Nat :=
  if crcEnabled cfg then currentLength fb - 1 else currentLength fb

/-- `bytes[1 .. end]`: the payload, header and CRC byte stripped (42_assembler.md R170). -/
def framePayload (cfg : Byte) (fb : FrameBuffer) : List Byte := fb.bytes.span 1 (payloadEnd cfg fb)

/-- Flush step 1: the whole accumulated sequence is traced when verbose (42_assembler.md R166). -/
def flushTrace (s : State) : State :=
  if verbose s.cfg then emitTrace (s.fb.bytes.span 0 (currentLength s.fb + 1)) s else s

/-- Flush steps 2 to 4: the rejection, or the delivery and its count (42_assembler.md R168, R171, R172). -/
def flushVerdict (s : State) : State :=
  if frameAccepted s.cfg s.fb then
    (deliver (framePayload s.cfg s.fb) s).give (.count (framePayload s.cfg s.fb).length)
  else s.give (.count 0)

/-- `FA.FLUSH` (42_assembler.md R165). The bytes it reads are `bytes[0 .. byte_cursor]`, so a cursor beyond the space is
an access that does not exist (log entry 11). -/
def flush (s : State) : Result :=
  if currentLength s.fb < Config.maxFrameBytes then .next (flushVerdict (flushTrace s))
  else .fault (.noSuchByte (currentLength s.fb))

/-- `FA.EVAL_COMPLETION` (42_assembler.md R159): on completion one flush, then the mode `Idle` whatever it answered (R163).
10_state.md R38 counts that write as the `ACCEPT` step's and says that this operation writes no field. The two differ only for
the operation run on its own, and no ruling settles it: following R159 there is a DESIGN CHOICE (log entry 13). -/
def evalCompletion (s : State) : Result :=
  if s.fb.normalCompletion || s.fb.forcedCompletion then
    (flush s).andThen fun t => .next { t with mode := .idle }
  else .next (s.give (.count 0))

/-- The `Idle` half of the step (42_assembler.md R151): without sync the unit is discarded, with it a frame starts. No
completion is evaluated (R156). -/
def acceptIdle (bit : Byte) (sync : Bool) (s : State) : Result :=
  if sync then
    (appendBit bit (clearBuffer s)).andThen fun t => .next (State.give { t with mode := .assembling } (.count 0))
  else .next (s.give (.count 0))

/-- The `Assembling` half of the step (42_assembler.md R151): append, then evaluate; the sync flag is ignored (R157). -/
def acceptAssembling (bit : Byte) (s : State) : Result := (appendBit bit s).andThen evalCompletion

/-- `ACCEPT` with its operands assembled (42_assembler.md R151). A marked state has no such step (60_exceptions.md R213). -/
def accept (bit : Byte) (sync : Bool) (s : State) : Result :=
  match s.fault with
  | some m => .fault (.marked m)
  | none =>
    match s.mode with
    | .idle => acceptIdle bit sync s.takeUnit
    | .assembling => acceptAssembling bit s.takeUnit

/-- `ACCEPT(unit)` (42_assembler.md R151): the operands are bits 0 and 1 of the unit. -/
def acceptUnit (u : Byte) (s : State) : Result := accept (unitBit u) (unitSync u) s

/-- The label of the `ACCEPT` step with these operands, from an unmarked state in which it does not raise
(60_exceptions.md R212). -/
def stepLabel (bit : Byte) (sync : Bool) (s : State) : StepLabel :=
  match s.mode with
  | .idle => if sync then .start else .discard
  | .assembling =>
    if (appended (crcEnabled s.cfg) bit s.fb).normalCompletion then
      if frameAccepted s.cfg (appended (crcEnabled s.cfg) bit s.fb) then .accepted else .rejected
    else if (appended (crcEnabled s.cfg) bit s.fb).forcedCompletion then
      if frameAccepted s.cfg (appended (crcEnabled s.cfg) bit s.fb) then .forcedAccepted else .forcedRejected
    else .continue

/-- `ACCEPT.D0` (42_assembler.md R152); bits 7:2 are ignored (30_encoding.md R72). -/
def execAcceptD0 (_rsvd : BitVec 6) (s : State) : Result := accept 0#8 false s

/-- `ACCEPT.D1` (42_assembler.md R153); bits 7:2 are ignored (30_encoding.md R72). -/
def execAcceptD1 (_rsvd : BitVec 6) (s : State) : Result := accept 1#8 false s

/-- `ACCEPT.S0` (42_assembler.md R154); bits 7:2 are ignored (30_encoding.md R72). -/
def execAcceptS0 (_rsvd : BitVec 6) (s : State) : Result := accept 0#8 true s

/-- `ACCEPT.S1` (42_assembler.md R155); bits 7:2 are ignored (30_encoding.md R72). -/
def execAcceptS1 (_rsvd : BitVec 6) (s : State) : Result := accept 1#8 true s

/-- `FA.EVAL_COMPLETION` run on its own (42_assembler.md R159). -/
def execFaEvalCompletion (s : State) : Result := evalCompletion s.begin

/-- `FA.FLUSH` run on its own (42_assembler.md R165). -/
def execFaFlush (s : State) : Result := flush s.begin

end Sys2Proof.Machine
end

