-- ==== Sys2Proof/Machine/Reset.lean ====
section
/-! DEFINITION. `RESET(cfg)`, the power-on or construction reset (70_reset_and_hazards.md R240). -/

namespace Sys2Proof.Machine

/-- `RESET` with a legal configuration: every field of `S` at its reset value (70_reset_and_hazards.md R240, 10_state.md
R39). The boundary is the environment's: what the host will present and what it was handed stay (log entry 17). -/
def applyReset (cfg : Byte) (s : State) : State :=
  { clearBuffer { s with cfg := cfg, mode := .idle } with pos := 0, fault := none }

/-- `RESET(cfg)`: an illegal configuration is refused (30_encoding.md R76). -/
def execReset (cfg : Byte) (s : State) : Result :=
  if legalCfg cfg then .next (applyReset cfg s.begin) else .refused (.illegalConfig cfg)

end Sys2Proof.Machine
end

