-- ==== Sys2Proof/Machine/Dispatch.lean ====
section
/-! DEFINITION. One arm per operation: each calls the meaning of its own. -/

namespace Sys2Proof.Machine

/-- The meaning of each operation of the table. -/
def exec (i : Instr) (s : State) : Host.Outcome State Fault Refusal :=
  match i with
  | .acceptD0 rsvd => Sys2Proof.Machine.execAcceptD0 rsvd s
  | .acceptD1 rsvd => Sys2Proof.Machine.execAcceptD1 rsvd s
  | .acceptS0 rsvd => Sys2Proof.Machine.execAcceptS0 rsvd s
  | .acceptS1 rsvd => Sys2Proof.Machine.execAcceptS1 rsvd s
  | .crc8Update reg byte => Sys2Proof.Machine.execCrc8Update reg byte s
  | .crc8Run data => Sys2Proof.Machine.execCrc8Run data s
  | .fbReset => Sys2Proof.Machine.execFbReset s
  | .fbAppendBit bit => Sys2Proof.Machine.execFbAppendBit bit s
  | .fbCurrentLength => Sys2Proof.Machine.execFbCurrentLength s
  | .fbIsHeaderKnown => Sys2Proof.Machine.execFbIsHeaderKnown s
  | .faEvalCompletion => Sys2Proof.Machine.execFaEvalCompletion s
  | .faFlush => Sys2Proof.Machine.execFaFlush s
  | .sinkDeliver payload => Sys2Proof.Machine.execSinkDeliver payload s
  | .traceEmit bytes => Sys2Proof.Machine.execTraceEmit bytes s
  | .reset cfg => Sys2Proof.Machine.execReset cfg s

end Sys2Proof.Machine
end

