-- ==== Sys2Proof/Machine/Step.lean ====
section
/-! DEFINITION. One step: take what the host presents next and run it. -/

namespace Sys2Proof.Machine

/-- One step (00_scope.md R14; 70_reset_and_hazards.md R250). -/
def step (s : State) : Host.Outcome State Fault Refusal :=
  match fetch s with
  | .next (i, t) => exec i t
  | .fault r => .fault r
  | .refused r => .refused r

/-- The state in which the host presents, next, the unit that this word of the opcode table stands for. -/
def State.withFetchWord (s : State) (nbits w : Nat) : State :=
  { s with inputs := .unit (tableUnit nbits w) :: s.inputs }

end Sys2Proof.Machine
end

