-- ==== Sys2Proof/Machine/Batch.lean ====
section
/-! DEFINITION. Runs of several operations: a batch of units with its count (70_reset_and_hazards.md R253), and a
sequence of operations run one after another. -/

namespace Sys2Proof.Machine

/-- A batch of units, one `ACCEPT` step each: the last state and the sum of the steps' counts (70_reset_and_hazards.md
R253). It ends only in an unmarked state (60_exceptions.md R213). -/
def runBatch : List Byte → State → Host.Outcome (State × Nat) Fault Refusal
  | [], s =>
    match s.final with
    | .next t => .next (t, 0)
    | .fault r => .fault r
    | .refused r => .refused r
  | u :: us, s =>
    match exec (decodeUnit u) s with
    | .next t =>
      match runBatch us t with
      | .next (t', n) => .next (t', t.count + n)
      | .fault r => .fault r
      | .refused r => .refused r
    | .fault r => .fault r
    | .refused r => .refused r

/-- Operations run one after another, each from the state the one before it left, and ended only in an unmarked
state (60_exceptions.md R213). -/
def runInstrs : List Instr → State → Result
  | [], s => s.final
  | i :: is, s => Result.andThen (exec i s) (runInstrs is)

end Sys2Proof.Machine
end

