-- ==== Sys2Proof/Machine/Wire.lean ====
section
/-! DEFINITION. The notation for unit streams: the frame on the wire and the pseudo-instructions, each as the units it
expands to (30_encoding.md R78, R83). -/

namespace Sys2Proof.Machine

/-- The bits of a byte, bit 7 first (20_memory.md R53). -/
def bitsMsbFirst (x : Byte) : List Bool := (List.range 8).map fun k => x.getLsbD (7 - k)

/-- `D(b)`: the data unit `D0` or `D1` (30_encoding.md R83). -/
def dataUnit (b : Bool) : Byte := if b then 0x01#8 else 0x00#8

/-- `S(b)`: the sync unit `S0` or `S1` (30_encoding.md R83). -/
def syncUnit (b : Bool) : Byte := if b then 0x03#8 else 0x02#8

/-- `BYTE x` (30_encoding.md R83). -/
def byteUnits (x : Byte) : List Byte := (bitsMsbFirst x).map dataUnit

/-- `SBYTE x`: the first unit carries the sync flag (30_encoding.md R83). -/
def syncByteUnits (x : Byte) : List Byte := syncUnit (x.getLsbD 7) :: ((bitsMsbFirst x).tail.map dataUnit)

/-- `IDLE n`: `n` units `D0` (30_encoding.md R83). -/
def idleUnits (n : Nat) : List Byte := List.replicate n 0x00#8

/-- `FRAME L, p1, ..., pL`, CRC disabled (30_encoding.md R83). -/
def frameUnits (header : Byte) (payload : List Byte) : List Byte :=
  syncByteUnits header ++ payload.flatMap byteUnits

/-- `FRAMEX L, p1, ..., pL, c`: an explicit, possibly wrong, CRC byte (30_encoding.md R83). -/
def frameUnitsX (header : Byte) (payload : List Byte) (crc : Byte) : List Byte :=
  frameUnits header payload ++ byteUnits crc

/-- `FRAMEC L, p1, ..., pL`, CRC enabled (30_encoding.md R83). -/
def frameUnitsC (header : Byte) (payload : List Byte) : List Byte :=
  frameUnitsX header payload (crc8Run (header :: payload))

/-- The state in which the host goes on to present these units before what it would have presented. -/
def State.present (s : State) (us : List Byte) : State := { s with inputs := us.map Stimulus.unit ++ s.inputs }

end Sys2Proof.Machine
end

