-- ==== Sys2Proof/Safety.lean ====
section
/-! DEFINITION. What a well-formed state is (10_state.md R37, with what its proof by induction over steps needs), and the
words in which claims compare states. -/

namespace Sys2Proof.Machine

/-- The operation is one of the four input-unit commands, with data bit `b` (30_encoding.md R71): the only ones a unit
selects. -/
def carriesBit (i : Instr) (b : Byte) : Prop :=
  (∃ r, i = .acceptD0 r ∨ i = .acceptS0 r) ∧ b = 0#8 ∨ (∃ r, i = .acceptD1 r ∨ i = .acceptS1 r) ∧ b = 1#8

/-- The operation is one of the two commands with the sync flag clear. -/
def carriesNoSync (i : Instr) : Prop := ∃ r, i = .acceptD0 r ∨ i = .acceptD1 r

/-- The operation is one of the two commands with the sync flag set. -/
def carriesSync (i : Instr) : Prop := ∃ r, i = .acceptS0 r ∨ i = .acceptS1 r

/-- The operation is one of the four input-unit commands. -/
def isAccept (i : Instr) : Prop := carriesNoSync i ∨ carriesSync i

/-- The operation is `RESET`. -/
def isReset (i : Instr) : Prop := ∃ cfg, i = .reset cfg

/-- The number a sequence of bits spells, the first bit the highest (00_scope.md R10). -/
def bitsValue (bits : List Bool) : Nat := bits.foldl (fun v b => 2 * v + b.toNat) 0

/-- The same outcome with another CFG word in the state it gives. -/
def withCfg (c : Byte) : Result → Result
  | .next t => .next { t with cfg := c }
  | .fault (.raised t) => .fault (.raised { t with cfg := c })
  | .fault (.marked m) => .fault (.marked m)
  | .fault (.noSuchByte n) => .fault (.noSuchByte n)
  | .refused r => .refused r

/-- The bounds of an output event (30_encoding.md R80). -/
def Event.bounded : Event → Prop
  | .trace b => 1 ≤ b.length ∧ b.length ≤ 2048
  | .deliver p => p.length ≤ 2047

/-- The frame-buffer part of the invariant (10_state.md R37 items 1 and 5, 20_memory.md R59): cursors in range, the bytes
in canonical form with nothing listed above the current byte, and a known length that is the one the header declares. -/
structure FrameBuffer.Inv (crc : Bool) (fb : FrameBuffer) : Prop where
  bit_range : fb.bitCursor ≤ 8
  byte_range : fb.byteCursor ≤ 2047
  canonical : fb.bytes.wf = true
  nothing_above : ∀ i, fb.byteCursor < i → fb.bytes.read i = 0#8
  length_declared : ∀ n, fb.expectedLen = some n → n = (fb.bytes.read 0).toNat + (if crc then 1 else 0) + 1

/-- The part that holds while a frame is assembled (10_state.md R37 items 2, 3 and 6; 41_framebuffer.md R126): a bit has
been appended, the length is known exactly from the second byte on, the partial byte holds only the bits it got, and no
completion has been missed (42_assembler.md R160, R161). -/
structure FrameBuffer.Open (fb : FrameBuffer) : Prop where
  some_bit : 1 ≤ fb.bitCursor
  known_iff : fb.expectedLen.isSome = true ↔ 1 ≤ fb.byteCursor
  partial_byte : (fb.bytes.read fb.byteCursor).toNat < 2 ^ fb.bitCursor
  within : ∀ n, fb.expectedLen = some n → n ≠ 1 → fb.byteCursor ≤ n - 1
  no_normal : fb.normalCompletion = false
  no_forced : fb.forcedCompletion = false

/-- A well-formed state: what every step keeps. -/
structure State.Inv (s : State) : Prop where
  cfg_legal : legalCfg s.cfg = true
  unmarked : s.fault = none
  buffer : s.fb.Inv (crcEnabled s.cfg)
  open_frame : s.mode = .assembling → s.fb.Open
  events_sent : ∃ earlier, s.sent = earlier ++ s.events
  events_bounded : ∀ e ∈ s.sent, e.bounded

end Sys2Proof.Machine
end

