-- ==== Sys2Proof/Certificates/Slice0/Obligations.lean ====
section
/-! DEFINITION. The statements for the provers. Each docstring names the rules of spec/ it formalises; where a clause rests
on a choice of the model or on an inference or decision of the spec, the docstring says so. -/

open Sys2Proof Sys2Proof.Machine

/-! ### Encoding -/

/-- 30_encoding.md R71 (the table follows decision D1): bits 1:0 of a unit select its command, one row for each value. -/
def Obligations.UnitBitsSelectCommand : Prop :=
  ∀ u : Byte,
    ((u &&& 0x03#8) = 0x00#8 ↔ ∃ r, decode [u] = .ok (.acceptD0 r, [])) ∧
    ((u &&& 0x03#8) = 0x01#8 ↔ ∃ r, decode [u] = .ok (.acceptD1 r, [])) ∧
    ((u &&& 0x03#8) = 0x02#8 ↔ ∃ r, decode [u] = .ok (.acceptS0 r, [])) ∧
    ((u &&& 0x03#8) = 0x03#8 ↔ ∃ r, decode [u] = .ok (.acceptS1 r, []))

/-- Units written out from 30_encoding.md R70 and R71 decode to the commands they stand for. That the ignored bits 7:2 are
kept as an operand is the model's choice (log entry 14). -/
def Obligations.WrittenOutUnitsDecode : Prop :=
  decode [0b00000000#8] = .ok (.acceptD0 0b000000#6, []) ∧
  decode [0b00000001#8] = .ok (.acceptD1 0b000000#6, []) ∧
  decode [0b00000010#8] = .ok (.acceptS0 0b000000#6, []) ∧
  decode [0b00000011#8] = .ok (.acceptS1 0b000000#6, []) ∧
  decode [0b11111100#8] = .ok (.acceptD0 0b111111#6, []) ∧
  decode [0b10100110#8, 0b00000001#8] = .ok (.acceptS0 0b101001#6, [0b00000001#8])

/-- 30_encoding.md R71, R77, R81: encoding and decoding a unit stream are inverse to each other, every bit kept, and the
streams that can be encoded are those of the four input-unit commands. -/
def Obligations.UnitStreamsDecodeAndEncodeAgree : Prop :=
  (∀ (is : List Instr) (us : List Byte), encodeStream is = some us → decodeStream us = is) ∧
  (∀ us : List Byte, encodeStream (decodeStream us) = some us) ∧
  (∀ is : List Instr, (∃ us, encodeStream is = some us) ↔ ∀ i ∈ is, isAccept i)

/-- 30_encoding.md R72: units that differ only in bits 7:2 have the same effect in every state; every unit selects one of
the four commands; and no unit is refused. -/
def Obligations.ReservedUnitBitsAreIgnored : Prop :=
  (∀ (u v : Byte) (s : State), (u &&& 0x03#8) = (v &&& 0x03#8) → exec (decodeUnit u) s = exec (decodeUnit v) s) ∧
  (∀ u : Byte, ∃ i, decode [u] = .ok (i, []) ∧ isAccept i) ∧
  (∀ (u : Byte) (s : State) (r : Refusal), exec (decodeUnit u) s ≠ .refused r)

/-- 30_encoding.md R72 over whole streams: two streams that agree unit by unit in bits 1:0 run alike, from every state. -/
def Obligations.ReservedUnitBitsNeverMatterInARun : Prop :=
  ∀ (us vs : List Byte) (s : State), us.map (· &&& 0x03#8) = vs.map (· &&& 0x03#8) → runBatch us s = runBatch vs s

/-! ### The step -/

/-- 00_scope.md R14, 70_reset_and_hazards.md R250: a step runs what the host presents next, a unit through the decoder. The
queue, the refusal when it is empty, and the fault a marked state answers then, are the model's (log entries 1, 2 and 7). -/
def Obligations.StepRunsTheDecodedUnit : Prop :=
  (∀ (s : State) (u : Byte) (rest : List Stimulus) (i : Instr), s.inputs = .unit u :: rest → decode [u] = .ok (i, []) →
    step s = exec i { s with inputs := rest }) ∧
  (∀ (s : State) (cfg : Byte) (rest : List Stimulus), s.inputs = .reset cfg :: rest →
    step s = exec (.reset cfg) { s with inputs := rest }) ∧
  (∀ s : State, s.inputs = [] → s.fault = none → step s = .refused .awaitingUnit) ∧
  (∀ (s : State) (m : FaultMark), s.inputs = [] → s.fault = some m → step s = .fault (.marked m))

/-! ### The four input-unit commands -/

/-- 42_assembler.md R151, R152, R153 in `Idle`: a unit without the sync flag is discarded; only `pos` changes in `S`, and the
count is 0. -/
def Obligations.IdleDataUnitIsDiscarded : Prop :=
  ∀ (s : State) (r : BitVec 6), s.fault = none → s.mode = .idle →
    exec (.acceptD0 r) s = .next { s with pos := s.pos + 1, returned := .count 0, events := [] } ∧
    exec (.acceptD1 r) s = .next { s with pos := s.pos + 1, returned := .count 0, events := [] }

/-- 42_assembler.md R151, R154, R155, R156 in `Idle`: a unit with the sync flag clears the buffer, whatever it held, and
becomes bit 7 of a new header; nothing is evaluated and the count is 0. -/
def Obligations.IdleSyncUnitStartsFrame : Prop :=
  ∀ (s : State) (r : BitVec 6), s.fault = none → s.mode = .idle →
    exec (.acceptS0 r) s =
      .next { s with mode := .assembling, pos := s.pos + 1, returned := .count 0, events := [],
                     fb := { bytes := [], bitCursor := 1, byteCursor := 0, expectedLen := none } } ∧
    exec (.acceptS1 r) s =
      .next { s with mode := .assembling, pos := s.pos + 1, returned := .count 0, events := [],
                     fb := { bytes := [(0, 0x01#8)], bitCursor := 1, byteCursor := 0, expectedLen := none } }

/-- 42_assembler.md R151 to R155 in `Assembling`, 41_framebuffer.md R122 to R127: the unit's data bit is appended, whatever
its sync flag, and nothing else of the buffer or of `S` changes but `pos` and the mode, which is `Idle` when a completion
condition of 42_assembler.md R160 or R161 holds of the buffer with the appended bit and stays `Assembling` otherwise (R163,
R164). -/
def Obligations.AssemblingUnitAppendsItsBit : Prop :=
  ∀ (i : Instr) (b : Byte) (s : State), carriesBit i b → s.fault = none → s.mode = .assembling →
    s.fb.bytes.wf = true → s.fb.byteCursor ≤ 2047 → (s.fb.bitCursor = 8 → s.fb.byteCursor < 2047) →
    ∃ t, exec i s = .next t ∧
      t.fb.byteCursor = (if s.fb.bitCursor = 8 then s.fb.byteCursor + 1 else s.fb.byteCursor) ∧
      t.fb.bitCursor = (if s.fb.bitCursor = 8 then 1 else s.fb.bitCursor + 1) ∧
      t.fb.expectedLen =
        (if s.fb.expectedLen = none ∧
            (s.fb.bitCursor = 8 ∧ s.fb.byteCursor = 0 ∨ s.fb.bitCursor = 0 ∧ s.fb.byteCursor = 1)
          then some ((s.fb.bytes.read 0).toNat + (if crcEnabled s.cfg then 1 else 0) + 1) else s.fb.expectedLen) ∧
      (∀ a, t.fb.bytes.read a =
        if a = t.fb.byteCursor then
          (if s.fb.bitCursor = 8 ∨ s.fb.bitCursor = 0 then b else (s.fb.bytes.read a <<< 1) ||| b)
        else s.fb.bytes.read a) ∧
      t.fb.bytes.wf = true ∧
      t.cfg = s.cfg ∧ t.pos = s.pos + 1 ∧ t.fault = none ∧ t.inputs = s.inputs ∧
      t.mode = (if (t.fb.bitCursor = 8 ∧ t.fb.expectedLen = some (t.fb.byteCursor + 1)) ∨ t.fb.byteCursor = 2047
        then .idle else .assembling)

/-- 42_assembler.md R159 to R172 within the step: with `t` the state after the step, whose buffer holds the appended bit, the
frame completes exactly when its last byte is done or byte 2047 is reached. Then the mode is `Idle`, the trace comes first
when verbose, and the frame is delivered without header and CRC byte unless its CRC check fails. Otherwise the mode stays
`Assembling` and nothing is handed out. -/
def Obligations.AssemblingUnitCompletesTheFrame : Prop :=
  ∀ (i : Instr) (b : Byte) (s : State), carriesBit i b → s.fault = none → s.mode = .assembling →
    s.fb.byteCursor ≤ 2047 → (s.fb.bitCursor = 8 → s.fb.byteCursor < 2047) →
    ∃ t, exec i s = .next t ∧
      let last := t.fb.byteCursor
      let traced := if verbose s.cfg then [Event.trace (t.fb.bytes.span 0 (last + 1))] else []
      let payload := t.fb.bytes.span 1 (if crcEnabled s.cfg then last - 1 else last)
      let done := (t.fb.bitCursor = 8 ∧ ∃ n, t.fb.expectedLen = some n ∧ n ≠ 0 ∧ last = n - 1) ∨ last = 2047
      t.sent = s.sent ++ t.events ∧
      (¬ done → t.mode = .assembling ∧ t.returned = .count 0 ∧ t.events = []) ∧
      (done → t.mode = .idle ∧
        (crcEnabled s.cfg = true ∧ crc8Run (t.fb.bytes.span 0 last) ≠ t.fb.bytes.read last →
          t.returned = .count 0 ∧ t.events = traced) ∧
        (¬ (crcEnabled s.cfg = true ∧ crc8Run (t.fb.bytes.span 0 last) ≠ t.fb.bytes.read last) →
          t.returned = .count payload.length ∧ t.events = traced ++ [.deliver payload]))

/-- 42_assembler.md R157: in `Assembling`, `ACCEPT.S0` is `ACCEPT.D0` and `ACCEPT.S1` is `ACCEPT.D1`: the sync flag has no
effect of its own and does not restart the frame. -/
def Obligations.SyncWhileAssemblingIsAnOrdinaryBit : Prop :=
  ∀ (s : State) (r r' : BitVec 6), s.mode = .assembling →
    exec (.acceptS0 r) s = exec (.acceptD0 r') s ∧ exec (.acceptS1 r) s = exec (.acceptD1 r') s

/-- 42_assembler.md R168: a completing unit whose frame fails its CRC check delivers nothing, reports 0, returns to `Idle`,
and emits a trace only when verbose. -/
def Obligations.RejectedFrameIsSilent : Prop :=
  ∀ (i : Instr) (b : Byte) (s t : State), carriesBit i b → s.mode = .assembling → exec i s = .next t →
    ((t.fb.bitCursor = 8 ∧ t.fb.expectedLen = some (t.fb.byteCursor + 1)) ∨ t.fb.byteCursor = 2047) →
    crcEnabled s.cfg = true → crc8Run (t.fb.bytes.span 0 t.fb.byteCursor) ≠ t.fb.bytes.read t.fb.byteCursor →
    t.mode = .idle ∧ t.returned = .count 0 ∧ messagesOffered t.events = [] ∧
    (verbose s.cfg = false → t.events = []) ∧
    (verbose s.cfg = true → t.events = [.trace (t.fb.bytes.span 0 (t.fb.byteCursor + 1))]) ∧
    t.sent = s.sent ++ t.events

/-- 60_exceptions.md R212 (labels of decision D16): from a well-formed state the label of a step tells its count, its events
and the mode it leaves, row by row; the row `FORCED_REJECTED` is not reached. -/
def Obligations.StepLabelTellsTheOutcome : Prop :=
  ∀ (u : Byte) (s : State), s.Inv →
    ∃ t, exec (decodeUnit u) s = .next t ∧
      let label := stepLabel (unitBit u) (unitSync u) s
      let traced := if verbose s.cfg then [Event.trace (t.fb.bytes.span 0 (t.fb.byteCursor + 1))] else []
      (label = .discard ↔ s.mode = .idle ∧ unitSync u = false) ∧
      (label = .start ↔ s.mode = .idle ∧ unitSync u = true) ∧
      (label = .discard → t.mode = .idle ∧ t.returned = .count 0 ∧ t.events = []) ∧
      (label = .start → t.mode = .assembling ∧ t.returned = .count 0 ∧ t.events = []) ∧
      (label = .continue → t.mode = .assembling ∧ t.returned = .count 0 ∧ t.events = []) ∧
      (label = .accepted → t.mode = .idle ∧ t.fb.normalCompletion = true ∧
        t.returned = .count (t.fb.bytes.read 0).toNat ∧
        t.events = traced ++ [.deliver (t.fb.bytes.span 1 (t.fb.bytes.read 0).toNat)]) ∧
      (label = .rejected → t.mode = .idle ∧ t.fb.normalCompletion = true ∧ t.returned = .count 0 ∧ t.events = traced) ∧
      (label = .forcedAccepted → t.mode = .idle ∧ t.fb.forcedCompletion = true ∧ t.returned = .count 2047 ∧
        t.events = traced ++ [.deliver (t.fb.bytes.span 1 2047)]) ∧
      label ≠ .forcedRejected

/-! ### The CRC-8 engine -/

/-- 40_crc8.md R101: the update returns the table entry at `reg ^ byte`, writes no field of `S`, and depends only on the
exclusive-or of its operands. Where the returned value stands is the model's choice (log entry 3). -/
def Obligations.Crc8UpdateReturnsTheTableEntry : Prop :=
  ∀ (reg byte k : Byte) (s : State),
    exec (.crc8Update reg byte) s = .next { s with returned := .byte (Config.crc8Table (reg ^^^ byte)), events := [] } ∧
    exec (.crc8Update reg byte) s = exec (.crc8Update (reg ^^^ k) (byte ^^^ k)) s ∧
    exec (.crc8Update byte byte) s = .next { s with returned := .byte (Config.crc8Table 0x00#8), events := [] }

/-- 40_crc8.md R102: the run is the left fold of the update from 0x00 over the bytes in order, total for every length, and it
writes no field of `S`: the empty sequence gives 0x00, and one more byte is one more table step on what the run before it
gave. Where the returned value stands is the model's choice (log entry 3). -/
def Obligations.Crc8RunFoldsTheTable : Prop :=
  (∀ s : State, exec (.crc8Run []) s = .next { s with returned := .byte 0x00#8, events := [] }) ∧
  (∀ (data : List Byte) (b : Byte) (s : State), ∃ c,
    exec (.crc8Run data) s = .next { s with returned := .byte c, events := [] } ∧
    exec (.crc8Run (data ++ [b])) s = .next { s with returned := .byte (Config.crc8Table (c ^^^ b)), events := [] }) ∧
  (∀ (a b : Byte) (s : State),
    exec (.crc8Run [a]) s = .next { s with returned := .byte (Config.crc8Table a), events := [] } ∧
    exec (.crc8Run [a, b]) s =
      .next { s with returned := .byte (Config.crc8Table (Config.crc8Table a ^^^ b)), events := [] }) ∧
  (∀ (xs ys : List Byte) (s : State), ∃ c,
    exec (.crc8Run xs) s = .next { s with returned := .byte c, events := [] } ∧
    exec (.crc8Run (xs ++ ys)) s =
      .next { s with returned := .byte (ys.foldl (fun reg b => Config.crc8Table (reg ^^^ b)) c), events := [] })

/-! ### The frame buffer -/

/-- 41_framebuffer.md R121: `FB.RESET` clears every byte, both cursors and the length, clears the three buffer flags, leaves
`mode`, `cfg`, `pos` and the mark, and changes nothing when applied again. -/
def Obligations.FbResetClearsTheBuffer : Prop :=
  ∀ s : State, ∃ t, exec .fbReset s = .next t ∧
    (∀ i, t.fb.bytes.read i = 0x00#8) ∧ t.fb.bitCursor = 0 ∧ t.fb.byteCursor = 0 ∧ t.fb.expectedLen = none ∧
    t.fb.headerKnown = false ∧ t.fb.byteDone = false ∧ t.fb.atLimit = false ∧
    t.mode = s.mode ∧ t.cfg = s.cfg ∧ t.pos = s.pos ∧ t.fault = s.fault ∧ t.inputs = s.inputs ∧
    t.returned = .nothing ∧ t.events = [] ∧ t.sent = s.sent ∧
    exec .fbReset t = .next t

/-- 41_framebuffer.md R123, R127 (with R122, R124 to R126 for the other fields): `FB.APPEND_BIT` of a 0 or a 1 with room in
the buffer first moves on from a completed byte and otherwise leaves the byte cursor, writes one byte, and counts the bit, so
that the bit cursor is 1 to 8; nothing else of `S` changes. -/
def Obligations.AppendBitRunsItsFourSteps : Prop :=
  ∀ (bit : Byte) (s : State), bit = 0#8 ∨ bit = 1#8 → s.fb.bytes.wf = true → s.fb.bitCursor ≤ 8 →
    s.fb.byteCursor ≤ 2047 → (s.fb.bitCursor = 8 → s.fb.byteCursor < 2047) →
    ∃ t, exec (.fbAppendBit bit) s = .next t ∧
      t.fb.byteCursor = (if s.fb.bitCursor = 8 then s.fb.byteCursor + 1 else s.fb.byteCursor) ∧
      t.fb.bitCursor = (if s.fb.bitCursor = 8 then 0 else s.fb.bitCursor) + 1 ∧
      1 ≤ t.fb.bitCursor ∧ t.fb.bitCursor ≤ 8 ∧
      t.fb.expectedLen =
        (if s.fb.expectedLen = none ∧
            (s.fb.bitCursor = 8 ∧ s.fb.byteCursor = 0 ∨ s.fb.bitCursor = 0 ∧ s.fb.byteCursor = 1)
          then some ((s.fb.bytes.read 0).toNat + (if crcEnabled s.cfg then 1 else 0) + 1) else s.fb.expectedLen) ∧
      (∀ a, t.fb.bytes.read a =
        if a = t.fb.byteCursor then
          (if s.fb.bitCursor = 8 ∨ s.fb.bitCursor = 0 then bit else (s.fb.bytes.read a <<< 1) ||| bit)
        else s.fb.bytes.read a) ∧
      t.fb.bytes.wf = true ∧
      t.mode = s.mode ∧ t.cfg = s.cfg ∧ t.pos = s.pos ∧ t.fault = s.fault ∧ t.inputs = s.inputs ∧
      t.returned = .nothing ∧ t.events = [] ∧ t.sent = s.sent

/-- 41_framebuffer.md R124, R125 (exact arithmetic is decision D6): starting the second byte latches header + CRC byte + 1,
which is 2 to 257 with CRC enabled and 1 to 256 without; once known, the length is never changed by an append. -/
def Obligations.HeaderLatchIsExactAndOnce : Prop :=
  ∀ (bit : Byte) (s t : State), exec (.fbAppendBit bit) s = .next t →
    (bit = 0#8 ∨ bit = 1#8 → s.fb.bitCursor = 8 → s.fb.byteCursor = 0 → s.fb.expectedLen = none →
      ∃ n, t.fb.expectedLen = some n ∧
        n = (s.fb.bytes.read 0).toNat + (if crcEnabled s.cfg then 1 else 0) + 1 ∧
        (crcEnabled s.cfg = true → 2 ≤ n ∧ n ≤ 257) ∧ (crcEnabled s.cfg = false → 1 ≤ n ∧ n ≤ 256)) ∧
    (∀ n, s.fb.expectedLen = some n → t.fb.expectedLen = some n)

/-- 41_framebuffer.md R126 (its last clauses are marked derived there): while a byte holds as many bits as the bit cursor says,
shifting the next one in drops none of them: the new value is twice the old plus the bit, and has one bit more. -/
def Obligations.ShiftedInBitDropsNothing : Prop :=
  ∀ (b : Bool) (s : State), s.fb.bytes.wf = true → 1 ≤ s.fb.bitCursor → s.fb.bitCursor < 8 → s.fb.byteCursor ≤ 2047 →
    (s.fb.bytes.read s.fb.byteCursor).toNat < 2 ^ s.fb.bitCursor →
    ∃ t, exec (.fbAppendBit (bitByte b)) s = .next t ∧
      t.fb.byteCursor = s.fb.byteCursor ∧ t.fb.bitCursor = s.fb.bitCursor + 1 ∧
      (t.fb.bytes.read t.fb.byteCursor).toNat = 2 * (s.fb.bytes.read s.fb.byteCursor).toNat + b.toNat ∧
      (t.fb.bytes.read t.fb.byteCursor).toNat < 2 ^ t.fb.bitCursor

/-- 41_framebuffer.md R131, 20_memory.md R53, R54 (derived there): after `k` appends from `FB.RESET`, up to the buffer's 16384
bits, the cursors are the quotient and remainder of `k - 1` by 8, the length is known from the ninth on, and byte `j` holds
the `j`-th group of eight bits, the first bit highest; the last byte holds the bits it got. The sequence starts unmarked, since none ends in a marked state
(60_exceptions.md R213). -/
def Obligations.AppendsFillBytesMsbFirst : Prop :=
  ∀ (bits : List Bool) (s : State), s.fault = none → 1 ≤ bits.length → bits.length ≤ 16384 →
    ∃ t, runInstrs (.fbReset :: bits.map fun b => .fbAppendBit (bitByte b)) s = .next t ∧
      t.fb.byteCursor = (bits.length - 1) / 8 ∧ t.fb.bitCursor = (bits.length - 1) % 8 + 1 ∧
      (t.fb.expectedLen.isSome = true ↔ 9 ≤ bits.length) ∧
      (∀ j, j ≤ t.fb.byteCursor → (t.fb.bytes.read j).toNat = bitsValue ((bits.drop (8 * j)).take 8)) ∧
      (∀ j, t.fb.byteCursor < j → t.fb.bytes.read j = 0x00#8) ∧
      t.mode = s.mode ∧ t.cfg = s.cfg ∧ t.pos = s.pos ∧ t.fault = s.fault ∧ t.sent = s.sent

/-- 41_framebuffer.md R129 and R130: the two queries return the byte cursor, an index and not a count, and whether the length
is known, and write nothing of `S`. After `FB.RESET` and `k` appends the first returns `(k - 1) / 8`, which is 0 for the whole
first byte, and the second is true from the ninth append on. Where a returned value stands is the model's choice (log entry
3). -/
def Obligations.BufferQueriesReturnCursorAndHeaderKnown : Prop :=
  (∀ s : State,
    exec .fbCurrentLength s = .next { s with returned := .index s.fb.byteCursor, events := [] } ∧
    exec .fbIsHeaderKnown s = .next { s with returned := .flag s.fb.expectedLen.isSome, events := [] }) ∧
  (∀ (bits : List Bool) (s : State), s.fault = none → bits.length ≤ 16384 →
    (∃ t, runInstrs ((.fbReset :: bits.map fun b => .fbAppendBit (bitByte b)) ++ [.fbCurrentLength]) s = .next t ∧
      t.returned = .index ((bits.length - 1) / 8)) ∧
    (∃ t, runInstrs ((.fbReset :: bits.map fun b => .fbAppendBit (bitByte b)) ++ [.fbIsHeaderKnown]) s = .next t ∧
      t.returned = .flag (decide (9 ≤ bits.length))))

/-! ### Completion and flush -/

/-- 42_assembler.md R164: while no completion condition holds, the evaluation leaves every field of `S`, the mode included, and
reports 0. -/
def Obligations.NotCompletingReportsZero : Prop :=
  ∀ s : State, ¬ (s.fb.bitCursor = 8 ∧ ∃ n, s.fb.expectedLen = some n ∧ n ≠ 0 ∧ s.fb.byteCursor = n - 1) →
    s.fb.byteCursor ≠ 2047 →
    exec .faEvalCompletion s = .next { s with returned := .count 0, events := [] }

/-- 42_assembler.md R159 to R163: on a completion the evaluation answers what the flush answers, with the mode `Idle` whatever
that was. That the evaluation run on its own writes the mode is the model's choice of R159 over R38 (log entry 13). -/
def Obligations.CompletingFlushesAndGoesIdle : Prop :=
  ∀ s : State, (s.fb.bitCursor = 8 ∧ ∃ n, s.fb.expectedLen = some n ∧ n ≠ 0 ∧ s.fb.byteCursor = n - 1) ∨
      s.fb.byteCursor = 2047 →
    s.fb.byteCursor ≤ 2047 →
    ∃ t, exec .faFlush s = .next t ∧ exec .faEvalCompletion s = .next { t with mode := .idle } ∧
      t.mode = s.mode ∧ (t.returned = .count 0 ∨ t.returned = .count (if crcEnabled s.cfg then s.fb.byteCursor - 1 else s.fb.byteCursor))

/-- 42_assembler.md R165 to R172: the flush writes no field of `S`. It traces `bytes[0 .. byte_cursor]` first when verbose. With
CRC enabled and the CRC over `bytes[0 .. byte_cursor-1]` different from the last byte it reports 0 and delivers nothing;
otherwise it delivers `bytes[1 .. end]` and reports its length. A cursor beyond the buffer stops it: that clause is the model's
choice (log entry 11). -/
def Obligations.FlushTracesChecksAndDelivers : Prop :=
  ∀ s : State,
    let last := s.fb.byteCursor
    let traced := if verbose s.cfg then [Event.trace (s.fb.bytes.span 0 (last + 1))] else []
    let payload := s.fb.bytes.span 1 (if crcEnabled s.cfg then last - 1 else last)
    (last ≤ 2047 → crcEnabled s.cfg = true → crc8Run (s.fb.bytes.span 0 last) ≠ s.fb.bytes.read last →
      exec .faFlush s = .next { s with returned := .count 0, events := traced, sent := s.sent ++ traced }) ∧
    (last ≤ 2047 → (crcEnabled s.cfg = false ∨ crc8Run (s.fb.bytes.span 0 last) = s.fb.bytes.read last) →
      exec .faFlush s = .next { s with returned := .count payload.length, events := traced ++ [.deliver payload],
                                       sent := s.sent ++ traced ++ [.deliver payload] }) ∧
    (2047 < last → exec .faFlush s = .fault (.noSuchByte last))

/-! ### The sink -/

/-- 43_framesink.md R191, R194 (one event per operation is decisions D13 and D22): each emits its one event, writes no field of
`S`, and the events handed over before stay as they were. The fields that hold the events are the model's (log entry 3). -/
def Obligations.EmissionsAppendOneEvent : Prop :=
  ∀ (bytes : List Byte) (s : State),
    exec (.sinkDeliver bytes) s =
      .next { s with returned := .nothing, events := [.deliver bytes], sent := s.sent ++ [.deliver bytes] } ∧
    exec (.traceEmit bytes) s =
      .next { s with returned := .nothing, events := [.trace bytes], sent := s.sent ++ [.trace bytes] }

/-- 20_memory.md R58, R62, 43_framesink.md R191 (ownership): whatever operation runs, what was handed to the environment before
is a prefix of what was handed to it after, and the operation's own events are the rest. -/
def Obligations.HandedOverEventsAreNeverTakenBack : Prop :=
  ∀ (i : Instr) (s t : State), exec i s = .next t → t.sent = s.sent ++ t.events

/-- 20_memory.md R58, R62, 42_assembler.md R172: an input unit emits at most one trace and then at most one delivery, and
returns a count, which is the length of the delivered payload, 0 without a delivery. -/
def Obligations.UnitEmitsTraceThenDelivery : Prop :=
  ∀ (u : Byte) (s t : State), exec (decodeUnit u) s = .next t →
    (t.events = [] ∨ (∃ b, t.events = [.trace b]) ∨ (∃ p, t.events = [.deliver p]) ∨
      ∃ b p, t.events = [.trace b, .deliver p]) ∧
    t.count = (echoStream t.events).length ∧ (messagesOffered t.events).length ≤ 1 ∧
    (∃ n, t.returned = .count n)

/-- 70_reset_and_hazards.md R253, R40 (decision D19): the count of a batch is the number of bytes its deliveries add to the
echo stream. -/
def Obligations.BatchCountIsTheDeliveredLength : Prop :=
  ∀ (us : List Byte) (s t : State) (n : Nat), runBatch us s = .next (t, n) →
    ∃ es, t.sent = s.sent ++ es ∧ n = (echoStream es).length

/-- 10_state.md R22, R32, R34: a batch of units leaves the configuration and advances the stream position by its length. -/
def Obligations.PositionCountsUnitsAndConfigStays : Prop :=
  ∀ (us : List Byte) (s t : State) (n : Nat), runBatch us s = .next (t, n) →
    t.pos = s.pos + us.length ∧ t.cfg = s.cfg ∧ t.inputs = s.inputs

/-! ### Reset -/

/-- 70_reset_and_hazards.md R240, 10_state.md R39 (decisions D3, D7): `RESET` with a legal configuration puts every field of `S`
at its reset value, from any state, a marked one or one within a frame included, and hands out nothing. That the boundary
fields stay is the model's choice (log entry 17). -/
def Obligations.ResetPutsEveryFieldAtItsResetValue : Prop :=
  ∀ (cfg : Byte) (s : State), cfg = 0x00#8 ∨ cfg = 0x02#8 ∨ cfg = 0x05#8 ∨ cfg = 0x07#8 →
    exec (.reset cfg) s =
      .next { cfg := cfg, mode := .idle,
              fb := { bytes := [], bitCursor := 0, byteCursor := 0, expectedLen := none },
              pos := 0, fault := none, inputs := s.inputs, returned := .nothing, events := [], sent := s.sent }

/-- 30_encoding.md R76 (decisions D3, D4): every other CFG word is refused, and those are the words with a reserved bit set or
`drop_crc` different from `crc_enabled`. -/
def Obligations.IllegalConfigurationIsRefused : Prop :=
  ∀ (cfg : Byte) (s : State),
    (cfg ≠ 0x00#8 ∧ cfg ≠ 0x02#8 ∧ cfg ≠ 0x05#8 ∧ cfg ≠ 0x07#8 → exec (.reset cfg) s = .refused (.illegalConfig cfg)) ∧
    ((∃ t, exec (.reset cfg) s = .next t) ↔ cfg.extractLsb' 3 5 = 0#5 ∧ cfg.getLsbD 2 = cfg.getLsbD 0)

/-- 10_state.md R39, R21: the machine after reset. The configuration of the constant state is the model's choice (log entry 5),
and the statement says only that it is a legal one. -/
def Obligations.ResetStateHoldsTheResetValues : Prop :=
  State.reset.mode = .idle ∧ (∀ i, State.reset.fb.bytes.read i = 0x00#8) ∧ State.reset.fb.bytes.wf = true ∧
  State.reset.fb.bitCursor = 0 ∧ State.reset.fb.byteCursor = 0 ∧ State.reset.fb.expectedLen = none ∧
  State.reset.pos = 0 ∧ State.reset.fault = none ∧ legalCfg State.reset.cfg = true

/-! ### Model faults -/

/-- 60_exceptions.md R213, R214 (decisions D16, D26): a bit that is neither 0 nor 1 raises: the state entered has the mark
`BAD_BIT` with the value, and nothing is appended. That a raise stops with the state it enters, and is no next state, is the
model's inference (log entry 7). -/
def Obligations.BadBitMarksTheState : Prop :=
  ∀ (bit : Byte) (s : State), bit ≠ 0#8 → bit ≠ 1#8 → s.fault = none →
    exec (.fbAppendBit bit) s = .fault (.raised { s with fault := some (.badBit bit), returned := .nothing, events := [] })

/-- 60_exceptions.md R213, R215, 41_framebuffer.md R122 (decision D16): an append that moves past byte 2047 raises: the state
entered has the mark `CURSOR_BOUND` with `S.pos`. The rest is the model's inference, not the spec's: that the raise stops with
the state it enters (log entry 7); that step 1 stands there, nothing is written and the recorded position is the one at the
raise (log entry 10); and that in a step the raise ends it, with the position incremented, the mode kept, no completion
evaluated and no count returned (log entry 19). -/
def Obligations.CursorPastTheBufferMarksTheState : Prop :=
  ∀ (i : Instr) (b : Byte) (s : State), carriesBit i b → s.fault = none → s.fb.bitCursor = 8 → s.fb.byteCursor = 2047 →
    exec (.fbAppendBit b) s =
      .fault (.raised { s with fb := { s.fb with bitCursor := 0, byteCursor := 2048 }, fault := some (.cursorBound s.pos),
                               returned := .nothing, events := [] }) ∧
    (s.mode = .assembling → exec i s =
      .fault (.raised { s with fb := { s.fb with bitCursor := 0, byteCursor := 2048 }, pos := s.pos + 1,
                               fault := some (.cursorBound (s.pos + 1)), returned := .nothing, events := [] }))

/-- 60_exceptions.md R213 (decision D16): a marked state has no `ACCEPT` step, no operation but `RESET` clears the mark, and
`RESET` with any legal configuration clears it. The rest is the model's: that `ACCEPT` answers the fault `marked` there, and
that a raise stops with the state it enters, is its inference (log entry 7); that internal operations run in a marked state,
and that a second raise leaves the first mark unchanged, is its choice (log entry 8). -/
def Obligations.FaultMarkIsStickyUntilReset : Prop :=
  ∀ (m : FaultMark) (s : State), s.fault = some m →
    (∀ i, isAccept i → exec i s = .fault (.marked m)) ∧
    (∀ i t, ¬ isReset i → exec i s = .next t → t.fault = some m) ∧
    (∀ i t, exec i s = .fault (.raised t) → t.fault = some m) ∧
    (∀ cfg, legalCfg cfg = true → ∃ t, exec (.reset cfg) s = .next t ∧ t.fault = none)

/-! ### Rules over the whole machine -/

/-- 10_state.md R38, R21, R22 (derived there): which operations write which field of `S`. For `FA.EVAL_COMPLETION` run on its
own the mode is the model's choice of R159 over R38 (log entry 13); the mark follows R213: among next states only `RESET` changes it. -/
def Obligations.EachFieldHasItsWriters : Prop :=
  ∀ (i : Instr) (s t : State), exec i s = .next t →
    (¬ isReset i → t.cfg = s.cfg) ∧
    (¬ isReset i → ¬ isAccept i → t.pos = s.pos) ∧
    (isAccept i → t.pos = s.pos + 1) ∧
    (t.mode ≠ s.mode → isReset i ∧ t.mode = .idle ∨ i = .faEvalCompletion ∧ t.mode = .idle ∨
      carriesSync i ∧ t.mode = .assembling ∨
      isAccept i ∧ t.mode = .idle ∧ (t.fb.normalCompletion = true ∨ t.fb.forcedCompletion = true)) ∧
    (t.fb ≠ s.fb → isReset i ∨ isAccept i ∨ i = .fbReset ∨ ∃ b, i = .fbAppendBit b) ∧
    (isAccept i → s.mode = .idle → carriesNoSync i → t.fb = s.fb) ∧
    (t.fault ≠ s.fault → isReset i ∧ t.fault = none) ∧
    t.inputs = s.inputs

/-- 10_state.md R37 (derived there): the state after reset, and after `RESET` with any legal configuration, is well-formed. -/
def Obligations.ResetIsWellFormed : Prop :=
  State.reset.Inv ∧
  ∀ (cfg : Byte) (s : State), legalCfg cfg = true → (∀ e ∈ s.sent, e.bounded) →
    ∃ t, exec (.reset cfg) s = .next t ∧ t.Inv

/-- 10_state.md R37 items 1 to 3, 5 and 6, R29, 20_memory.md R59, 30_encoding.md R80 (derived there): every step, a unit or a
reset, takes a well-formed state to a well-formed state. -/
def Obligations.EveryStepKeepsTheInvariant : Prop :=
  ∀ s t : State, s.Inv → step s = .next t → t.Inv

/-- 60_exceptions.md R210, R213, 41_framebuffer.md R128 (derived there): from a well-formed state no stream of units stops, and
no fault is ever marked. -/
def Obligations.NoUnitStreamFaults : Prop :=
  ∀ (us : List Byte) (s : State), s.Inv →
    ∃ t n, runBatch us s = .next (t, n) ∧ t.Inv ∧ t.fault = none ∧ t.fb.byteCursor ≤ 2047

/-- 42_assembler.md R162 (derived there): in a well-formed state at most one of the two completion conditions holds. -/
def Obligations.AtMostOneCompletionCondition : Prop :=
  ∀ s : State, s.Inv → ¬ (s.fb.normalCompletion = true ∧ s.fb.forcedCompletion = true)

/-- 42_assembler.md R175 (derived there): a step of a well-formed state reaches the forced completion only with CRC disabled and
header 0. -/
def Obligations.ForcedCompletionOnlyForHeaderZeroWithoutCrc : Prop :=
  ∀ (u : Byte) (s t : State), s.Inv → s.mode = .assembling → exec (decodeUnit u) s = .next t →
    t.fb.forcedCompletion = true → crcEnabled s.cfg = false ∧ t.fb.bytes.read 0 = 0x00#8 ∧ t.fb.expectedLen = some 1

/-- 42_assembler.md R174 (derived there), R167, R168, R170: a normal completion of a well-formed state ends at the declared
length. If CRC is enabled and the CRC over all bytes but the last differs from the last, it delivers nothing and counts 0;
otherwise it delivers exactly the declared payload `bytes[1 .. L]`, once, with the count `L`. -/
def Obligations.NormalCompletionDeliversTheDeclaredPayload : Prop :=
  ∀ (u : Byte) (s t : State), s.Inv → s.mode = .assembling → exec (decodeUnit u) s = .next t →
    t.fb.normalCompletion = true →
    let declared := (t.fb.bytes.read 0).toNat
    t.mode = .idle ∧
    t.fb.byteCursor = declared + (if crcEnabled s.cfg then 1 else 0) ∧
    let checkFails :=
      crcEnabled s.cfg = true ∧ crc8Run (t.fb.bytes.span 0 t.fb.byteCursor) ≠ t.fb.bytes.read t.fb.byteCursor
    (checkFails → messagesOffered t.events = [] ∧ t.returned = .count 0) ∧
    (¬ checkFails → messagesOffered t.events = [t.fb.bytes.span 1 declared] ∧ t.returned = .count declared)

/-- 70_reset_and_hazards.md R251, 30_encoding.md R80 (derived there): a unit of a well-formed state produces at most 255 bytes
with CRC enabled and at most 2047 without. -/
def Obligations.ProducedCountIsBounded : Prop :=
  ∀ (u : Byte) (s t : State), s.Inv → exec (decodeUnit u) s = .next t →
    (crcEnabled s.cfg = true → t.count ≤ 255) ∧ t.count ≤ 2047

/-- 10_state.md R25, 43_framesink.md R195, 42_assembler.md R166: the verbose flag has no effect but the trace: with the flag
inverted, a unit leaves the same `S` but for the flag, returns the same count and delivers the same payloads. -/
def Obligations.VerboseChangesOnlyTheTrace : Prop :=
  ∀ (u : Byte) (s t : State), exec (decodeUnit u) s = .next t →
    ∃ es, exec (decodeUnit u) { s with cfg := s.cfg ^^^ 0x02#8 } =
        .next { t with cfg := t.cfg ^^^ 0x02#8, events := es, sent := s.sent ++ es } ∧
      messagesOffered es = messagesOffered t.events ∧
      (verbose s.cfg = true → tracesEmitted es = []) ∧ (verbose s.cfg = false → tracesEmitted t.events = [])

/-- 10_state.md R24, R25, R26, R23 (decision D4): no operation but `RESET` reads `drop_crc` or the reserved bits: with any other
values there, each operation does the same. -/
def Obligations.UpperConfigurationBitsAreNeverRead : Prop :=
  ∀ (i : Instr) (s : State) (c : Byte), ¬ isReset i → c.getLsbD 0 = s.cfg.getLsbD 0 → c.getLsbD 1 = s.cfg.getLsbD 1 →
    exec i { s with cfg := c } = withCfg c (exec i s)

/-- 70_reset_and_hazards.md R242, 10_state.md R39 (derived there, decision D7): what the buffer holds while the block is `Idle`
cannot be observed: with any other contents, cursors and length, every stream of units runs to the same mode, count, events and
position, and to the same buffer too as soon as a frame is being assembled. -/
def Obligations.IdleBufferCannotBeObserved : Prop :=
  ∀ (us : List Byte) (s t : State) (fb : FrameBuffer) (n : Nat), s.mode = .idle → runBatch us s = .next (t, n) →
    ∃ t', runBatch us { s with fb := fb } = .next (t', n) ∧ t'.cfg = t.cfg ∧ t'.mode = t.mode ∧ t'.pos = t.pos ∧
      t'.fault = t.fault ∧ t'.returned = t.returned ∧ t'.events = t.events ∧ t'.sent = t.sent ∧
      (t.mode = .assembling → t'.fb = t.fb)

/-! ### Frames on the wire -/

/-- 30_encoding.md R78, 42_assembler.md R160, R165 to R171, R174 (derived there; the checked span is conflict C2): with CRC
enabled, from `Idle`, any units whose data bits spell the header `L`, `L` payload bytes and the right CRC byte, the first with
the sync flag, whatever their other sync flags and reserved bits, are one accepted frame: the payload is delivered once, after
the trace when verbose, and the block is `Idle` again. The steps are the machine's, over its queue. -/
def Obligations.FrameWithRightCrcIsDelivered : Prop :=
  ∀ (payload us : List Byte) (s : State), payload.length ≤ 255 →
    s.fault = none → s.mode = .idle → crcEnabled s.cfg = true →
    let header : Byte := BitVec.ofNat 8 payload.length
    let frame := header :: payload ++ [crc8Run (header :: payload)]
    us.map unitV = frame.flatMap bitsMsbFirst → (us.head?.map unitS) = some true →
    ∃ t, Host.Core.run Sys2Proof.core us.length (s.present us) = .next t ∧
      us.length = 8 * (payload.length + 2) ∧
      t.mode = .idle ∧ t.returned = .count payload.length ∧
      t.sent = s.sent ++ (if verbose s.cfg then [Event.trace frame] else []) ++ [Event.deliver payload] ∧
      t.fb.bytes.span 0 frame.length = frame ∧ t.fb.bitCursor = 8 ∧ t.fb.byteCursor = payload.length + 1 ∧
      t.fb.expectedLen = some (payload.length + 2) ∧
      t.cfg = s.cfg ∧ t.pos = s.pos + us.length ∧ t.fault = none ∧ t.inputs = s.inputs

/-- 42_assembler.md R168, R173, 30_encoding.md R83 (decision D15): with CRC enabled, from `Idle`, the frame with any other CRC
byte delivers nothing, counts 0, emits at most the trace, and leaves the block `Idle`. -/
def Obligations.FrameWithWrongCrcIsRejected : Prop :=
  ∀ (payload : List Byte) (crc : Byte) (s : State), payload.length ≤ 255 →
    s.fault = none → s.mode = .idle → crcEnabled s.cfg = true →
    let header : Byte := BitVec.ofNat 8 payload.length
    crc ≠ crc8Run (header :: payload) →
    ∃ t, runBatch (frameUnitsX header payload crc) s = .next (t, 0) ∧
      t.mode = .idle ∧ t.returned = .count 0 ∧
      t.sent = s.sent ++ (if verbose s.cfg then [Event.trace (header :: payload ++ [crc])] else []) ∧
      t.cfg = s.cfg ∧ t.fault = none ∧ t.pos = s.pos + 8 * (payload.length + 2)

/-- 42_assembler.md R174, R177, 41_framebuffer.md R125, 30_encoding.md R78, R83 (derived there): with CRC disabled, from `Idle`,
two frames of 1 to 255 payload bytes with no units between them are two accepted frames, delivered in order, and the batch
counts both. -/
def Obligations.BackToBackFramesWithoutCrcAreDelivered : Prop :=
  ∀ (p q : List Byte) (s : State), 1 ≤ p.length → p.length ≤ 255 → 1 ≤ q.length → q.length ≤ 255 →
    s.fault = none → s.mode = .idle → crcEnabled s.cfg = false →
    let header (x : List Byte) : Byte := BitVec.ofNat 8 x.length
    let traced (x : List Byte) := if verbose s.cfg then [Event.trace (header x :: x)] else []
    ∃ t, runBatch (frameUnits (header p) p ++ frameUnits (header q) q) s = .next (t, p.length + q.length) ∧
      t.mode = .idle ∧ t.fault = none ∧
      t.sent = s.sent ++ traced p ++ [Event.deliver p] ++ traced q ++ [Event.deliver q]

/-- 42_assembler.md R175, R176 (derived there; conflict C5): with CRC disabled, from `Idle`, a frame with header 0 does not
complete at its declared length: it runs, whatever its other units are, until the 16377th unit, which completes it with 2047
payload bytes, the last of them that unit's one bit. -/
def Obligations.HeaderZeroWithoutCrcRunsToTheLimit : Prop :=
  ∀ (us : List Byte) (u : Byte) (s : State), us.length = 16368 →
    s.fault = none → s.mode = .idle → crcEnabled s.cfg = false →
    ∃ t t' payload, runBatch (syncByteUnits 0x00#8 ++ us) s = .next (t, 0) ∧ t.mode = .assembling ∧ t.sent = s.sent ∧
      exec (decodeUnit u) t = .next t' ∧ t'.mode = .idle ∧ t'.returned = .count 2047 ∧
      t'.fb.byteCursor = 2047 ∧ t'.fb.bitCursor = 1 ∧ t'.fb.expectedLen = some 1 ∧
      t'.sent = s.sent ++ (if verbose s.cfg then [Event.trace (0x00#8 :: payload)] else []) ++ [Event.deliver payload] ∧
      payload.length = 2047 ∧ payload.getLast? = some (unitBit u) ∧
      (∀ j (h : j < payload.length), (payload[j]).toNat = bitsValue (((us ++ [u]).map unitV).drop (8 * j) |>.take 8))

/-! ### Rules over steps and runs -/

/-- 60_exceptions.md R213, R218 (decision D16): a marked state is never where anything ends. From an unmarked state no operation
goes on to a marked one, but stops as it raises, with a mark; no step, from any state, goes on to a marked one; no run of the
machine, no batch and no sequence of operations ends in one; and a marked state that is presented a unit, or nothing, stops.
The form of the stop is the model's inference (log entry 7). -/
def Obligations.MarkedStateIsNeverFinal : Prop :=
  (∀ (i : Instr) (s t : State), s.fault = none → exec i s = .next t → t.fault = none) ∧
  (∀ (i : Instr) (s t : State), exec i s = .fault (.raised t) → ∃ m, t.fault = some m) ∧
  (∀ s t : State, step s = .next t → t.fault = none) ∧
  (∀ (k : Nat) (s t : State), 1 ≤ k → Host.Core.run Sys2Proof.core k s = .next t → t.fault = none) ∧
  (∀ (us : List Byte) (s t : State) (n : Nat), runBatch us s = .next (t, n) → t.fault = none) ∧
  (∀ (is : List Instr) (s t : State), runInstrs is s = .next t → t.fault = none) ∧
  (∀ (s : State) (m : FaultMark), s.fault = some m →
    s.inputs = [] ∨ (∃ u rest, s.inputs = .unit u :: rest) → step s = .fault (.marked m))

/-- 10_state.md R38, R21, R22 (derived there), 42_assembler.md R151, R154, R155, R163: the write map over the steps of the machine,
where `ACCEPT` runs the completion evaluation. A unit's step leaves `cfg`, counts one unit, changes the mode only from `Idle`
on a sync unit or, on a completion, back to `Idle`, and leaves the buffer in `Idle` without sync. A reset's step leaves every
field of `S` at its reset value. -/
def Obligations.EveryStepFollowsTheWriteMap : Prop :=
  ∀ s t : State, step s = .next t →
    (∃ u rest, s.inputs = .unit u :: rest ∧ t.inputs = rest ∧ t.cfg = s.cfg ∧ t.pos = s.pos + 1 ∧ t.fault = s.fault ∧
      (s.mode = .idle → unitS u = false → t.mode = .idle ∧ t.fb = s.fb) ∧
      (s.mode = .idle → unitS u = true → t.mode = .assembling) ∧
      (s.mode = .assembling →
        t.mode = (if (t.fb.bitCursor = 8 ∧ t.fb.expectedLen = some (t.fb.byteCursor + 1)) ∨ t.fb.byteCursor = 2047
          then .idle else .assembling) ∧
        (s.fb.bytes.wf = true → ∀ a, a ≠ t.fb.byteCursor → t.fb.bytes.read a = s.fb.bytes.read a))) ∨
    (∃ cfg rest, s.inputs = .reset cfg :: rest ∧ t.inputs = rest ∧ legalCfg cfg = true ∧ t.cfg = cfg ∧ t.mode = .idle ∧
      t.fb = { bytes := [], bitCursor := 0, byteCursor := 0, expectedLen := none } ∧ t.pos = 0 ∧ t.fault = none)
end

