-- ==== Sys2Proof/Laws/Crc8.lean ====
section
/-! SUPPORT. The CRC run as a left fold, and the two meanings of the engine. -/

namespace Sys2Proof.Machine

@[simp] theorem crc8Run_nil : crc8Run [] = 0x00#8 := rfl

theorem crc8Run_concat (xs : List Byte) (b : Byte) : crc8Run (xs ++ [b]) = crc8Update (crc8Run xs) b := by
  simp [crc8Run]

theorem crc8Run_append (xs ys : List Byte) : crc8Run (xs ++ ys) = ys.foldl crc8Update (crc8Run xs) := by
  simp [crc8Run]

theorem execCrc8Update_eq (reg byte : Byte) (s : State) :
    execCrc8Update reg byte s = .next { s with returned := .byte (Config.crc8Table (reg ^^^ byte)), events := [] } := rfl

theorem execCrc8Run_eq (data : List Byte) (s : State) :
    execCrc8Run data s = .next { s with returned := .byte (crc8Run data), events := [] } := rfl

end Sys2Proof.Machine
end

