-- ==== Sys2Proof/Laws/Decode.lean ====
section
/-! SUPPORT. The unit's fields put together and taken apart, and the operands of a unit. -/

namespace Sys2Proof

@[simp] theorem unitV_mkUnit (r : BitVec 6) (s v : Bool) : unitV (mkUnit r s v) = v := by
  revert r s v; decide

@[simp] theorem unitS_mkUnit (r : BitVec 6) (s v : Bool) : unitS (mkUnit r s v) = s := by
  revert r s v; decide

@[simp] theorem unitRsvd_mkUnit (r : BitVec 6) (s v : Bool) : unitRsvd (mkUnit r s v) = r := by
  revert r s v; decide

theorem mkUnit_fields (u : Byte) : mkUnit (unitRsvd u) (unitS u) (unitV u) = u := by
  revert u; decide

theorem encode_decodeUnit (u : Byte) : encode (decodeUnit u) = some u := by
  have h := mkUnit_fields u
  cases hs : unitS u <;> cases hv : unitV u <;> simp [decodeUnit, encode, hs, hv, hs ▸ hv ▸ h]

namespace Machine

theorem unitBit_eq_bitByte (u : Byte) : unitBit u = bitByte (unitV u) := by
  revert u; decide

theorem unitSync_eq_unitS (u : Byte) : unitSync u = unitS u := by
  revert u; decide

@[simp] theorem bitByte_false : bitByte false = 0#8 := rfl

@[simp] theorem bitByte_true : bitByte true = 1#8 := rfl

theorem bitByte_is_bit (b : Bool) : bitByte b = 0#8 ∨ bitByte b = 1#8 := by
  cases b <;> simp

theorem bitByte_toNat (b : Bool) : (bitByte b).toNat = b.toNat := by
  cases b <;> rfl

/-- The two spellings of the legal configurations (30_encoding.md R76) agree. -/
theorem legalCfg_iff_listed (cfg : Byte) : legalCfg cfg = true ↔ cfg ∈ legalCfgWords := by
  revert cfg; decide

end Machine

end Sys2Proof
end

