-- ==== Sys2Proof/Laws/Memory.lean ====
section
/-! SUPPORT. The laws of the frame-buffer space: read after write, the canonical form that every write keeps, and equal
reads giving equal memories. -/

namespace Sys2Proof.Machine

@[simp] theorem Memory.read_nil (a : Nat) : Memory.read [] a = 0#8 := rfl

theorem Memory.read_cons (b : Nat) (w : Byte) (m : Memory) (a : Nat) :
    Memory.read ((b, w) :: m) a = if a = b then w else Memory.read m a := rfl

@[simp] theorem Memory.wfAbove_nil (lo : Option Nat) : Memory.wfAbove lo [] = true := by
  cases lo <;> rfl

theorem Memory.wfAbove_none_cons (b : Nat) (w : Byte) (m : Memory) :
    Memory.wfAbove none ((b, w) :: m) = true ↔ w ≠ 0#8 ∧ Memory.wfAbove (some b) m = true := by
  simp [Memory.wfAbove, Memory.unlisted]

theorem Memory.wfAbove_some_cons (l b : Nat) (w : Byte) (m : Memory) :
    Memory.wfAbove (some l) ((b, w) :: m) = true ↔ l < b ∧ w ≠ 0#8 ∧ Memory.wfAbove (some b) m = true := by
  simp [Memory.wfAbove, Memory.unlisted, and_assoc]

theorem Memory.wfAbove_weaken {k l : Nat} (h : k ≤ l) {m : Memory} (hm : Memory.wfAbove (some l) m = true) :
    Memory.wfAbove (some k) m = true := by
  cases m with
  | nil => simp
  | cons c m =>
    obtain ⟨b, w⟩ := c
    rw [Memory.wfAbove_some_cons] at hm ⊢
    exact ⟨by omega, hm.2⟩

theorem Memory.wfAbove_forget {lo : Option Nat} {m : Memory} (hm : Memory.wfAbove lo m = true) : m.wf = true := by
  cases lo with
  | none => exact hm
  | some l =>
    cases m with
    | nil => rfl
    | cons c m =>
      obtain ⟨b, w⟩ := c
      rw [Memory.wfAbove_some_cons] at hm
      exact (Memory.wfAbove_none_cons b w m).2 hm.2

/-- An index not above the bound of a canonical memory is not listed. -/
theorem Memory.read_of_le {l : Nat} {m : Memory} (hm : Memory.wfAbove (some l) m = true) {a : Nat} (ha : a ≤ l) :
    m.read a = 0#8 := by
  induction m generalizing l with
  | nil => rfl
  | cons c m ih =>
    obtain ⟨b, w⟩ := c
    rw [Memory.wfAbove_some_cons] at hm
    rw [Memory.read_cons, if_neg (by omega)]
    exact ih hm.2.2 (by omega)

/-- Read after write, on a canonical memory. -/
theorem Memory.read_write {m : Memory} (hm : m.wf = true) (a b : Nat) (v : Byte) :
    (m.write a v).read b = if b = a then v else m.read b := by
  have key : ∀ (m : Memory) (lo : Option Nat), Memory.wfAbove lo m = true →
      (m.write a v).read b = if b = a then v else m.read b := by
    intro m
    induction m with
    | nil =>
      intro lo _
      by_cases hv : v = 0#8
      · simp [Memory.write, Memory.unlisted, hv]
      · simp [Memory.write, Memory.unlisted, hv, Memory.read_cons]
    | cons c m ih =>
      intro lo h
      obtain ⟨k, w⟩ := c
      have htail : Memory.wfAbove (some k) m = true := by
        cases lo with
        | none => exact ((Memory.wfAbove_none_cons k w m).1 h).2
        | some l => exact ((Memory.wfAbove_some_cons l k w m).1 h).2.2
      rcases Nat.lt_trichotomy a k with hlt | heq | hgt
      · have hz : (Memory.read ((k, w) :: m) a) = 0#8 := by
          rw [Memory.read_cons, if_neg (by omega)]
          exact Memory.read_of_le htail (by omega)
        by_cases hv : v = 0#8
        · by_cases hb : b = a
          · subst hb; simp [Memory.write, Memory.unlisted, hlt, hv, hz]
          · simp [Memory.write, Memory.unlisted, hlt, hv, hb]
        · simp only [Memory.write, Memory.unlisted, hlt, hv, if_true, if_false, Memory.read_cons]
      · subst heq
        by_cases hv : v = 0#8
        · by_cases hb : b = a
          · subst hb
            simp only [Memory.write, Memory.unlisted, Nat.lt_irrefl, hv, if_true, if_false]
            exact Memory.read_of_le htail (by omega)
          · simp [Memory.write, Memory.unlisted, hv, hb, Memory.read_cons]
        · by_cases hb : b = a
          · subst hb; simp [Memory.write, Memory.unlisted, hv, Memory.read_cons]
          · simp [Memory.write, Memory.unlisted, hv, hb, Memory.read_cons]
      · have h1 : ¬ a < k := by omega
        have h2 : ¬ a = k := by omega
        simp only [Memory.write, h1, h2, if_false, Memory.read_cons]
        rw [ih (some k) htail]
        by_cases hb : b = k
        · have : ¬ b = a := by omega
          simp [hb]; omega
        · simp [hb]
  exact key m none hm

theorem Memory.read_write_same {m : Memory} (hm : m.wf = true) (a : Nat) (v : Byte) : (m.write a v).read a = v := by
  simp [Memory.read_write hm]

theorem Memory.read_write_other {m : Memory} (hm : m.wf = true) {a b : Nat} (h : b ≠ a) (v : Byte) :
    (m.write a v).read b = m.read b := by
  simp [Memory.read_write hm, h]

theorem Memory.wfAbove_write {l a : Nat} (hla : l < a) {m : Memory} (hm : Memory.wfAbove (some l) m = true) (v : Byte) :
    Memory.wfAbove (some l) (m.write a v) = true := by
  induction m generalizing l with
  | nil =>
    by_cases hv : v = 0#8
    · simp [Memory.write, Memory.unlisted, hv]
    · simp [Memory.write, Memory.unlisted, hv, Memory.wfAbove_some_cons, hla]
  | cons c m ih =>
    obtain ⟨k, w⟩ := c
    have hm0 := hm
    rw [Memory.wfAbove_some_cons] at hm
    obtain ⟨hlk, hw, htail⟩ := hm
    rcases Nat.lt_trichotomy a k with hlt | heq | hgt
    · by_cases hv : v = 0#8
      · simpa [Memory.write, Memory.unlisted, hlt, hv] using hm0
      · simp [Memory.write, Memory.unlisted, hlt, hv, Memory.wfAbove_some_cons, hla, hw, htail]
    · subst heq
      by_cases hv : v = 0#8
      · simp only [Memory.write, Memory.unlisted, Nat.lt_irrefl, hv, if_true, if_false]
        exact Memory.wfAbove_weaken (by omega) htail
      · simp [Memory.write, Memory.unlisted, hv, Memory.wfAbove_some_cons, hla, htail]
    · have h1 : ¬ a < k := by omega
      have h2 : ¬ a = k := by omega
      simp only [Memory.write, h1, h2, if_false]
      rw [Memory.wfAbove_some_cons]
      exact ⟨hlk, hw, ih hgt htail⟩

/-- Every write keeps the canonical form. -/
theorem Memory.wf_write {m : Memory} (hm : m.wf = true) (a : Nat) (v : Byte) : (m.write a v).wf = true := by
  cases m with
  | nil =>
    by_cases hv : v = 0#8 <;>
      simp [Memory.write, Memory.unlisted, hv, Memory.wf, Memory.wfAbove_none_cons]
  | cons c m =>
    obtain ⟨k, w⟩ := c
    have hm' := (Memory.wfAbove_none_cons k w m).1 hm
    rcases Nat.lt_trichotomy a k with hlt | heq | hgt
    · by_cases hv : v = 0#8
      · simpa [Memory.write, Memory.unlisted, hlt, hv] using hm
      · simp [Memory.write, Memory.unlisted, hlt, hv, Memory.wf, Memory.wfAbove_none_cons, Memory.wfAbove_some_cons, hm']
    · subst heq
      by_cases hv : v = 0#8
      · simp only [Memory.write, Memory.unlisted, Nat.lt_irrefl, hv, if_true, if_false]
        exact Memory.wfAbove_forget hm'.2
      · simp [Memory.write, Memory.unlisted, hv, Memory.wf, Memory.wfAbove_none_cons, hm']
    · have h1 : ¬ a < k := by omega
      have h2 : ¬ a = k := by omega
      simp only [Memory.write, h1, h2, if_false, Memory.wf]
      exact (Memory.wfAbove_none_cons _ _ _).2 ⟨hm'.1, Memory.wfAbove_write hgt hm'.2 v⟩

theorem Memory.mem_write {m : Memory} {a : Nat} {v : Byte} {c : Host.Cell} (hc : c ∈ m.write a v) :
    c.1 = a ∨ c ∈ m := by
  induction m with
  | nil =>
    simp only [Memory.write] at hc
    split at hc <;> simp_all
  | cons d m ih =>
    obtain ⟨k, w⟩ := d
    simp only [Memory.write] at hc
    split at hc
    · split at hc
      · exact .inr hc
      · rcases List.mem_cons.1 hc with rfl | h
        · exact .inl rfl
        · exact .inr h
    · split at hc
      · split at hc
        · exact .inr (List.mem_cons_of_mem _ hc)
        · rcases List.mem_cons.1 hc with rfl | h
          · exact .inl rfl
          · exact .inr (List.mem_cons_of_mem _ h)
      · rcases List.mem_cons.1 hc with rfl | h
        · exact .inr List.mem_cons_self
        · exact (ih h).imp id (List.mem_cons_of_mem _)

/-- A write inside the space lists nothing outside it. -/
theorem Memory.inSpace_write {m : Memory} (hm : m.inSpace = true) {a : Nat} (ha : a < Config.maxFrameBytes) (v : Byte) :
    (m.write a v).inSpace = true := by
  rw [Memory.inSpace, List.all_eq_true] at hm ⊢
  intro c hc
  rcases Memory.mem_write hc with h | h
  · simpa [h] using ha
  · exact hm c h

/-- Two canonical memories that read alike at every index are equal. -/
theorem Memory.ext_of_reads {m n : Memory} (hm : m.wf = true) (hn : n.wf = true) (h : ∀ a, m.read a = n.read a) :
    m = n := by
  have listed : ∀ {b : Nat} {w : Byte} {m : Memory}, w ≠ 0#8 → Memory.read ((b, w) :: m) b ≠ 0#8 := by
    intro b w m hw
    simpa [Memory.read_cons] using hw
  induction m generalizing n with
  | nil =>
    cases n with
    | nil => rfl
    | cons c n =>
      obtain ⟨b, w⟩ := c
      exact absurd (h b).symm (listed ((Memory.wfAbove_none_cons b w n).1 hn).1)
  | cons c m ih =>
    obtain ⟨b, w⟩ := c
    have hm' := (Memory.wfAbove_none_cons b w m).1 hm
    cases n with
    | nil => exact absurd (h b) (listed hm'.1)
    | cons d n =>
      obtain ⟨k, v⟩ := d
      have hn' := (Memory.wfAbove_none_cons k v n).1 hn
      have hbk : b = k := by
        rcases Nat.lt_trichotomy b k with hlt | heq | hgt
        · have := h b
          rw [Memory.read_cons k v n, if_neg (by omega), Memory.read_of_le hn'.2 (by omega)] at this
          exact absurd this (listed hm'.1)
        · exact heq
        · have := h k
          rw [Memory.read_cons b w m, if_neg (by omega), Memory.read_of_le hm'.2 (by omega)] at this
          exact absurd this.symm (listed hn'.1)
      subst hbk
      have hwv : w = v := by simpa [Memory.read_cons] using h b
      subst hwv
      have : m = n := by
        refine ih (Memory.wfAbove_forget hm'.2) (Memory.wfAbove_forget hn'.2) fun a => ?_
        by_cases hab : a = b
        · subst hab
          rw [Memory.read_of_le hm'.2 (Nat.le_refl _), Memory.read_of_le hn'.2 (Nat.le_refl _)]
        · simpa [Memory.read_cons, hab] using h a
      rw [this]

/-! ### Spans -/

@[simp] theorem Memory.span_length (m : Memory) (a n : Nat) : (m.span a n).length = n := by
  simp [Memory.span]

@[simp] theorem Memory.span_zero (m : Memory) (a : Nat) : m.span a 0 = [] := rfl

theorem Memory.span_succ (m : Memory) (a n : Nat) : m.span a (n + 1) = m.read a :: m.span (a + 1) n := by
  simp [Memory.span, List.range'_succ]

theorem Memory.span_concat (m : Memory) (a n : Nat) : m.span a (n + 1) = m.span a n ++ [m.read (a + n)] := by
  simp [Memory.span, List.range'_concat]

theorem Memory.span_congr {m k : Memory} {a n : Nat} (h : ∀ i, a ≤ i → i < a + n → m.read i = k.read i) :
    m.span a n = k.span a n := by
  refine List.map_congr_left fun i hi => ?_
  rw [List.mem_range'_1] at hi
  exact h i hi.1 hi.2

end Sys2Proof.Machine
end

