-- ==== Sys2Proof/Laws/State.lean ====
section
/-! SUPPORT. What each update of the state leaves in each field: one lemma per field per update, true by definition, so
that no proof unfolds a record update. -/

namespace Sys2Proof.Machine

/-! ### `State.begin` -/

@[simp] theorem State.begin_cfg (s : State) : (s.begin).cfg = s.cfg := rfl
@[simp] theorem State.begin_mode (s : State) : (s.begin).mode = s.mode := rfl
@[simp] theorem State.begin_fb (s : State) : (s.begin).fb = s.fb := rfl
@[simp] theorem State.begin_pos (s : State) : (s.begin).pos = s.pos := rfl
@[simp] theorem State.begin_fault (s : State) : (s.begin).fault = s.fault := rfl
@[simp] theorem State.begin_inputs (s : State) : (s.begin).inputs = s.inputs := rfl
@[simp] theorem State.begin_returned (s : State) : (s.begin).returned = .nothing := rfl
@[simp] theorem State.begin_events (s : State) : (s.begin).events = [] := rfl
@[simp] theorem State.begin_sent (s : State) : (s.begin).sent = s.sent := rfl

/-! ### `State.takeUnit` -/

@[simp] theorem State.takeUnit_cfg (s : State) : s.takeUnit.cfg = s.cfg := rfl
@[simp] theorem State.takeUnit_mode (s : State) : s.takeUnit.mode = s.mode := rfl
@[simp] theorem State.takeUnit_fb (s : State) : s.takeUnit.fb = s.fb := rfl
@[simp] theorem State.takeUnit_pos (s : State) : s.takeUnit.pos = s.pos + 1 := rfl
@[simp] theorem State.takeUnit_fault (s : State) : s.takeUnit.fault = s.fault := rfl
@[simp] theorem State.takeUnit_inputs (s : State) : s.takeUnit.inputs = s.inputs := rfl
@[simp] theorem State.takeUnit_returned (s : State) : s.takeUnit.returned = .nothing := rfl
@[simp] theorem State.takeUnit_events (s : State) : s.takeUnit.events = [] := rfl
@[simp] theorem State.takeUnit_sent (s : State) : s.takeUnit.sent = s.sent := rfl

/-! ### `State.give` -/

@[simp] theorem State.give_cfg (s : State) (r : Returned) : (s.give r).cfg = s.cfg := rfl
@[simp] theorem State.give_mode (s : State) (r : Returned) : (s.give r).mode = s.mode := rfl
@[simp] theorem State.give_fb (s : State) (r : Returned) : (s.give r).fb = s.fb := rfl
@[simp] theorem State.give_pos (s : State) (r : Returned) : (s.give r).pos = s.pos := rfl
@[simp] theorem State.give_fault (s : State) (r : Returned) : (s.give r).fault = s.fault := rfl
@[simp] theorem State.give_inputs (s : State) (r : Returned) : (s.give r).inputs = s.inputs := rfl
@[simp] theorem State.give_returned (s : State) (r : Returned) : (s.give r).returned = r := rfl
@[simp] theorem State.give_events (s : State) (r : Returned) : (s.give r).events = s.events := rfl
@[simp] theorem State.give_sent (s : State) (r : Returned) : (s.give r).sent = s.sent := rfl

/-! ### `State.emit` -/

@[simp] theorem State.emit_cfg (s : State) (e : Event) : (s.emit e).cfg = s.cfg := rfl
@[simp] theorem State.emit_mode (s : State) (e : Event) : (s.emit e).mode = s.mode := rfl
@[simp] theorem State.emit_fb (s : State) (e : Event) : (s.emit e).fb = s.fb := rfl
@[simp] theorem State.emit_pos (s : State) (e : Event) : (s.emit e).pos = s.pos := rfl
@[simp] theorem State.emit_fault (s : State) (e : Event) : (s.emit e).fault = s.fault := rfl
@[simp] theorem State.emit_inputs (s : State) (e : Event) : (s.emit e).inputs = s.inputs := rfl
@[simp] theorem State.emit_returned (s : State) (e : Event) : (s.emit e).returned = s.returned := rfl
@[simp] theorem State.emit_events (s : State) (e : Event) : (s.emit e).events = s.events ++ [e] := rfl
@[simp] theorem State.emit_sent (s : State) (e : Event) : (s.emit e).sent = s.sent ++ [e] := rfl

/-! ### `clearBuffer` -/

@[simp] theorem clearBuffer_cfg (s : State) : (clearBuffer s).cfg = s.cfg := rfl
@[simp] theorem clearBuffer_mode (s : State) : (clearBuffer s).mode = s.mode := rfl
@[simp] theorem clearBuffer_fb (s : State) : (clearBuffer s).fb = FrameBuffer.cleared := rfl
@[simp] theorem clearBuffer_pos (s : State) : (clearBuffer s).pos = s.pos := rfl
@[simp] theorem clearBuffer_fault (s : State) : (clearBuffer s).fault = s.fault := rfl
@[simp] theorem clearBuffer_inputs (s : State) : (clearBuffer s).inputs = s.inputs := rfl
@[simp] theorem clearBuffer_returned (s : State) : (clearBuffer s).returned = s.returned := rfl
@[simp] theorem clearBuffer_events (s : State) : (clearBuffer s).events = s.events := rfl
@[simp] theorem clearBuffer_sent (s : State) : (clearBuffer s).sent = s.sent := rfl

/-! ### `deliver` -/

@[simp] theorem deliver_cfg (p : List Byte) (s : State) : (deliver p s).cfg = s.cfg := rfl
@[simp] theorem deliver_mode (p : List Byte) (s : State) : (deliver p s).mode = s.mode := rfl
@[simp] theorem deliver_fb (p : List Byte) (s : State) : (deliver p s).fb = s.fb := rfl
@[simp] theorem deliver_pos (p : List Byte) (s : State) : (deliver p s).pos = s.pos := rfl
@[simp] theorem deliver_fault (p : List Byte) (s : State) : (deliver p s).fault = s.fault := rfl
@[simp] theorem deliver_inputs (p : List Byte) (s : State) : (deliver p s).inputs = s.inputs := rfl
@[simp] theorem deliver_returned (p : List Byte) (s : State) : (deliver p s).returned = s.returned := rfl
@[simp] theorem deliver_events (p : List Byte) (s : State) : (deliver p s).events = s.events ++ [.deliver p] := rfl
@[simp] theorem deliver_sent (p : List Byte) (s : State) : (deliver p s).sent = s.sent ++ [.deliver p] := rfl

/-! ### `emitTrace` -/

@[simp] theorem emitTrace_cfg (b : List Byte) (s : State) : (emitTrace b s).cfg = s.cfg := rfl
@[simp] theorem emitTrace_mode (b : List Byte) (s : State) : (emitTrace b s).mode = s.mode := rfl
@[simp] theorem emitTrace_fb (b : List Byte) (s : State) : (emitTrace b s).fb = s.fb := rfl
@[simp] theorem emitTrace_pos (b : List Byte) (s : State) : (emitTrace b s).pos = s.pos := rfl
@[simp] theorem emitTrace_fault (b : List Byte) (s : State) : (emitTrace b s).fault = s.fault := rfl
@[simp] theorem emitTrace_inputs (b : List Byte) (s : State) : (emitTrace b s).inputs = s.inputs := rfl
@[simp] theorem emitTrace_returned (b : List Byte) (s : State) : (emitTrace b s).returned = s.returned := rfl
@[simp] theorem emitTrace_events (b : List Byte) (s : State) : (emitTrace b s).events = s.events ++ [.trace b] := rfl
@[simp] theorem emitTrace_sent (b : List Byte) (s : State) : (emitTrace b s).sent = s.sent ++ [.trace b] := rfl

/-! ### `applyReset` -/

@[simp] theorem applyReset_cfg (c : Byte) (s : State) : (applyReset c s).cfg = c := rfl
@[simp] theorem applyReset_mode (c : Byte) (s : State) : (applyReset c s).mode = .idle := rfl
@[simp] theorem applyReset_fb (c : Byte) (s : State) : (applyReset c s).fb = FrameBuffer.cleared := rfl
@[simp] theorem applyReset_pos (c : Byte) (s : State) : (applyReset c s).pos = 0 := rfl
@[simp] theorem applyReset_fault (c : Byte) (s : State) : (applyReset c s).fault = none := rfl
@[simp] theorem applyReset_inputs (c : Byte) (s : State) : (applyReset c s).inputs = s.inputs := rfl
@[simp] theorem applyReset_returned (c : Byte) (s : State) : (applyReset c s).returned = s.returned := rfl
@[simp] theorem applyReset_events (c : Byte) (s : State) : (applyReset c s).events = s.events := rfl
@[simp] theorem applyReset_sent (c : Byte) (s : State) : (applyReset c s).sent = s.sent := rfl

/-! ### `State.present` -/

@[simp] theorem State.present_cfg (us : List Byte) (s : State) : (s.present us).cfg = s.cfg := rfl
@[simp] theorem State.present_mode (us : List Byte) (s : State) : (s.present us).mode = s.mode := rfl
@[simp] theorem State.present_fb (us : List Byte) (s : State) : (s.present us).fb = s.fb := rfl
@[simp] theorem State.present_pos (us : List Byte) (s : State) : (s.present us).pos = s.pos := rfl
@[simp] theorem State.present_fault (us : List Byte) (s : State) : (s.present us).fault = s.fault := rfl
@[simp] theorem State.present_inputs (us : List Byte) (s : State) : (s.present us).inputs = us.map Stimulus.unit ++ s.inputs := rfl
@[simp] theorem State.present_returned (us : List Byte) (s : State) : (s.present us).returned = s.returned := rfl
@[simp] theorem State.present_events (us : List Byte) (s : State) : (s.present us).events = s.events := rfl
@[simp] theorem State.present_sent (us : List Byte) (s : State) : (s.present us).sent = s.sent := rfl

/-! ### `State.withFetchWord` -/

@[simp] theorem State.withFetchWord_cfg (s : State) (n w : Nat) : (s.withFetchWord n w).cfg = s.cfg := rfl
@[simp] theorem State.withFetchWord_mode (s : State) (n w : Nat) : (s.withFetchWord n w).mode = s.mode := rfl
@[simp] theorem State.withFetchWord_fb (s : State) (n w : Nat) : (s.withFetchWord n w).fb = s.fb := rfl
@[simp] theorem State.withFetchWord_pos (s : State) (n w : Nat) : (s.withFetchWord n w).pos = s.pos := rfl
@[simp] theorem State.withFetchWord_fault (s : State) (n w : Nat) : (s.withFetchWord n w).fault = s.fault := rfl
@[simp] theorem State.withFetchWord_inputs (s : State) (n w : Nat) : (s.withFetchWord n w).inputs = .unit (tableUnit n w) :: s.inputs := rfl
@[simp] theorem State.withFetchWord_returned (s : State) (n w : Nat) : (s.withFetchWord n w).returned = s.returned := rfl
@[simp] theorem State.withFetchWord_events (s : State) (n w : Nat) : (s.withFetchWord n w).events = s.events := rfl
@[simp] theorem State.withFetchWord_sent (s : State) (n w : Nat) : (s.withFetchWord n w).sent = s.sent := rfl

/-! ### `State.mark`: the mark is sticky -/

@[simp] theorem State.mark_cfg (s : State) (m : FaultMark) : (s.mark m).cfg = s.cfg := rfl
@[simp] theorem State.mark_mode (s : State) (m : FaultMark) : (s.mark m).mode = s.mode := rfl
@[simp] theorem State.mark_fb (s : State) (m : FaultMark) : (s.mark m).fb = s.fb := rfl
@[simp] theorem State.mark_pos (s : State) (m : FaultMark) : (s.mark m).pos = s.pos := rfl
@[simp] theorem State.mark_inputs (s : State) (m : FaultMark) : (s.mark m).inputs = s.inputs := rfl
@[simp] theorem State.mark_returned (s : State) (m : FaultMark) : (s.mark m).returned = s.returned := rfl
@[simp] theorem State.mark_events (s : State) (m : FaultMark) : (s.mark m).events = s.events := rfl
@[simp] theorem State.mark_sent (s : State) (m : FaultMark) : (s.mark m).sent = s.sent := rfl

theorem State.mark_fault_of_unmarked {s : State} (h : s.fault = none) (m : FaultMark) : (s.mark m).fault = some m := by
  simp [State.mark, h]

theorem State.mark_fault_of_marked {s : State} {k : FaultMark} (h : s.fault = some k) (m : FaultMark) :
    (s.mark m).fault = some k := by
  simp [State.mark, h]

theorem State.mark_fault_ne_none (s : State) (m : FaultMark) : (s.mark m).fault ≠ none := by
  cases h : s.fault with
  | none => simp [State.mark_fault_of_unmarked h]
  | some k => simp [State.mark_fault_of_marked h]

/-! ### `FrameBuffer.cleared` -/

@[simp] theorem FrameBuffer.cleared_bytes : FrameBuffer.cleared.bytes = [] := rfl
@[simp] theorem FrameBuffer.cleared_bitCursor : FrameBuffer.cleared.bitCursor = 0 := rfl
@[simp] theorem FrameBuffer.cleared_byteCursor : FrameBuffer.cleared.byteCursor = 0 := rfl
@[simp] theorem FrameBuffer.cleared_expectedLen : FrameBuffer.cleared.expectedLen = none := rfl

/-! ### Sequencing after a call that may stop, and the end of a run -/

@[simp] theorem Result.andThen_next (s : State) (k : State → Result) : Result.andThen (.next s) k = k s := rfl
@[simp] theorem Result.andThen_fault (f : Fault) (k : State → Result) : Result.andThen (.fault f) k = .fault f := rfl
@[simp] theorem Result.andThen_refused (f : Refusal) (k : State → Result) :
    Result.andThen (.refused f) k = .refused f := rfl

/-- What ran before, where a sequence goes on to a next state. -/
theorem Result.andThen_eq_next {r : Result} {k : State → Result} {t : State} (h : r.andThen k = .next t) :
    ∃ s, r = .next s ∧ k s = .next t := by
  cases r with
  | next s => exact ⟨s, rfl, h⟩
  | fault f => exact nomatch h
  | refused f => exact nomatch h

theorem State.final_of_unmarked {s : State} (h : s.fault = none) : s.final = .next s := by
  simp [State.final, h]

theorem State.final_of_marked {s : State} {m : FaultMark} (h : s.fault = some m) : s.final = .fault (.marked m) := by
  simp [State.final, h]

/-- A run that ends ends unmarked, where it is (60_exceptions.md R213). -/
theorem State.final_eq_next {s t : State} (h : s.final = .next t) : t = s ∧ s.fault = none := by
  cases hf : s.fault with
  | none => rw [State.final_of_unmarked hf] at h; cases h; exact ⟨rfl, rfl⟩
  | some m => rw [State.final_of_marked hf] at h; exact nomatch h

theorem State.count_of_returned {s : State} {n : Nat} (h : s.returned = .count n) : s.count = n := by
  simp [State.count, h]

/-! ### One step -/

theorem step_of_no_input {s : State} (h : s.inputs = []) (hf : s.fault = none) : step s = .refused .awaitingUnit := by
  simp [step, fetch, h, hf]

theorem step_of_no_input_marked {s : State} {m : FaultMark} (h : s.inputs = []) (hf : s.fault = some m) :
    step s = .fault (.marked m) := by
  simp [step, fetch, h, hf]

theorem step_of_unit {s : State} {u : Byte} {rest : List Stimulus} (h : s.inputs = .unit u :: rest) :
    step s = exec (decodeUnit u) { s with inputs := rest } := by
  simp [step, fetch, h]

theorem step_of_reset {s : State} {cfg : Byte} {rest : List Stimulus} (h : s.inputs = .reset cfg :: rest) :
    step s = exec (.reset cfg) { s with inputs := rest } := by
  simp [step, fetch, h]

end Sys2Proof.Machine
end

