-- ==== Sys2Proof/Laws/FrameBuffer.lean ====
section
/-! SUPPORT. What an append does to each field of the frame buffer, and the three things `FB.APPEND_BIT` can do. -/

namespace Sys2Proof.Machine

/-! ### The four steps -/

theorem advanceByte_byteCursor (fb : FrameBuffer) :
    (advanceByte fb).byteCursor = if fb.bitCursor = 8 then fb.byteCursor + 1 else fb.byteCursor := by
  unfold advanceByte; split <;> rfl

theorem advanceByte_bitCursor (fb : FrameBuffer) :
    (advanceByte fb).bitCursor = if fb.bitCursor = 8 then 0 else fb.bitCursor := by
  unfold advanceByte; split <;> rfl

@[simp] theorem advanceByte_bytes (fb : FrameBuffer) : (advanceByte fb).bytes = fb.bytes := by
  unfold advanceByte; split <;> rfl

@[simp] theorem advanceByte_expectedLen (fb : FrameBuffer) : (advanceByte fb).expectedLen = fb.expectedLen := by
  unfold advanceByte; split <;> rfl

@[simp] theorem latchHeader_byteCursor (crc : Bool) (fb : FrameBuffer) :
    (latchHeader crc fb).byteCursor = fb.byteCursor := by
  unfold latchHeader; split <;> rfl

@[simp] theorem latchHeader_bitCursor (crc : Bool) (fb : FrameBuffer) :
    (latchHeader crc fb).bitCursor = fb.bitCursor := by
  unfold latchHeader; split <;> rfl

@[simp] theorem latchHeader_bytes (crc : Bool) (fb : FrameBuffer) : (latchHeader crc fb).bytes = fb.bytes := by
  unfold latchHeader; split <;> rfl

theorem latchHeader_expectedLen (crc : Bool) (fb : FrameBuffer) :
    (latchHeader crc fb).expectedLen =
      if fb.byteCursor = 1 ∧ fb.bitCursor = 0 ∧ fb.expectedLen = none then
        some (declaredLen crc (fb.bytes.read 0)) else fb.expectedLen := by
  unfold latchHeader; split <;> rfl

@[simp] theorem pushBit_byteCursor (bit : Byte) (fb : FrameBuffer) : (pushBit bit fb).byteCursor = fb.byteCursor := rfl

@[simp] theorem pushBit_bitCursor (bit : Byte) (fb : FrameBuffer) : (pushBit bit fb).bitCursor = fb.bitCursor + 1 := rfl

@[simp] theorem pushBit_expectedLen (bit : Byte) (fb : FrameBuffer) :
    (pushBit bit fb).expectedLen = fb.expectedLen := rfl

/-! ### The append -/

theorem appended_byteCursor (crc : Bool) (bit : Byte) (fb : FrameBuffer) :
    (appended crc bit fb).byteCursor = if fb.bitCursor = 8 then fb.byteCursor + 1 else fb.byteCursor := by
  simp [appended, advanceByte_byteCursor]

theorem appended_bitCursor (crc : Bool) (bit : Byte) (fb : FrameBuffer) :
    (appended crc bit fb).bitCursor = (if fb.bitCursor = 8 then 0 else fb.bitCursor) + 1 := by
  simp [appended, advanceByte_bitCursor]

theorem appended_expectedLen (crc : Bool) (bit : Byte) (fb : FrameBuffer) :
    (appended crc bit fb).expectedLen =
      if (advanceByte fb).byteCursor = 1 ∧ (advanceByte fb).bitCursor = 0 ∧ fb.expectedLen = none then
        some (declaredLen crc (fb.bytes.read 0)) else fb.expectedLen := by
  simp [appended, latchHeader_expectedLen]

/-- The byte an append writes is the one its byte cursor then names. -/
theorem appended_byteCursor_eq_advance (crc : Bool) (bit : Byte) (fb : FrameBuffer) :
    (appended crc bit fb).byteCursor = (advanceByte fb).byteCursor := by
  rw [appended_byteCursor, advanceByte_byteCursor]

/-- The header latch in terms of the cursors before the append (41_framebuffer.md R124, R125). -/
theorem appended_expectedLen_before (crc : Bool) (bit : Byte) (fb : FrameBuffer) :
    (appended crc bit fb).expectedLen =
      if fb.expectedLen = none ∧ (fb.bitCursor = 8 ∧ fb.byteCursor = 0 ∨ fb.bitCursor = 0 ∧ fb.byteCursor = 1) then
        some ((fb.bytes.read 0).toNat + (if crc then 1 else 0) + 1) else fb.expectedLen := by
  rw [appended_expectedLen, advanceByte_byteCursor, advanceByte_bitCursor]
  simp only [declaredLen]
  by_cases h8 : fb.bitCursor = 8
  · simp only [h8, if_true]
    congr 1
    simp; exact and_comm
  · simp only [h8, if_false]
    congr 1
    simp; tauto

theorem appended_bytes (crc : Bool) (bit : Byte) (fb : FrameBuffer) :
    (appended crc bit fb).bytes =
      fb.bytes.write (advanceByte fb).byteCursor
        (if (advanceByte fb).bitCursor = 0 then bit
          else (fb.bytes.read (advanceByte fb).byteCursor <<< 1) ||| bit) := by
  simp [appended, pushBit, bitWritten]

theorem appended_wf {fb : FrameBuffer} (h : fb.bytes.wf = true) (crc : Bool) (bit : Byte) :
    (appended crc bit fb).bytes.wf = true := by
  rw [appended_bytes]; exact Memory.wf_write h _ _

/-- The one byte an append writes, and the bytes it leaves (41_framebuffer.md R126). -/
theorem appended_read {fb : FrameBuffer} (h : fb.bytes.wf = true) (crc : Bool) (bit : Byte) (i : Nat) :
    (appended crc bit fb).bytes.read i =
      if i = (advanceByte fb).byteCursor then
        (if (advanceByte fb).bitCursor = 0 then bit
          else (fb.bytes.read (advanceByte fb).byteCursor <<< 1) ||| bit)
      else fb.bytes.read i := by
  rw [appended_bytes, Memory.read_write h]

/-- The bytes in terms of the cursors before the append (41_framebuffer.md R126). -/
theorem appended_read_before {fb : FrameBuffer} (h : fb.bytes.wf = true) (crc : Bool) (bit : Byte) (i : Nat) :
    (appended crc bit fb).bytes.read i =
      if i = (appended crc bit fb).byteCursor then
        (if fb.bitCursor = 8 ∨ fb.bitCursor = 0 then bit else (fb.bytes.read i <<< 1) ||| bit)
      else fb.bytes.read i := by
  rw [appended_read h, appended_byteCursor_eq_advance]
  by_cases hi : i = (advanceByte fb).byteCursor
  · subst hi
    rw [advanceByte_bitCursor]
    by_cases h8 : fb.bitCursor = 8 <;> simp [h8]
  · simp [hi]

/-- Room for the append, in terms of the cursors before it. -/
theorem advanceByte_room {fb : FrameBuffer} (h : fb.byteCursor ≤ 2047) (h8 : fb.bitCursor = 8 → fb.byteCursor < 2047) :
    (advanceByte fb).byteCursor ≤ 2047 := by
  rw [advanceByte_byteCursor]
  split
  · have := h8 ‹_›; omega
  · exact h

/-- Shifting a bit into a byte that holds fewer than eight bits drops nothing (41_framebuffer.md R126). -/
theorem shiftIn_toNat {old bit : Byte} {k : Nat} (hk : k < 8) (hold : old.toNat < 2 ^ k) (hb : bit = 0#8 ∨ bit = 1#8) :
    ((old <<< 1) ||| bit).toNat = 2 * old.toNat + bit.toNat := by
  have h7 : old.toNat < 128 := Nat.lt_of_lt_of_le hold (Nat.pow_le_pow_right (n := 2) (by omega) (show k ≤ 7 by omega))
  revert h7
  rcases hb with rfl | rfl <;> revert old <;> decide +revert

/-! ### What `FB.APPEND_BIT` can do -/

theorem appendBit_of_room {bit : Byte} {s : State} (hb : bit = 0#8 ∨ bit = 1#8)
    (h : (advanceByte s.fb).byteCursor ≤ 2047) :
    appendBit bit s = .next { s with fb := appended (crcEnabled s.cfg) bit s.fb } := by
  rw [appendBit, if_pos hb]; exact if_pos h

theorem appendBit_of_no_room {bit : Byte} {s : State} (hb : bit = 0#8 ∨ bit = 1#8)
    (h : ¬ (advanceByte s.fb).byteCursor ≤ 2047) :
    appendBit bit s = .fault (.raised (State.mark { s with fb := advanceByte s.fb } (.cursorBound s.pos))) := by
  rw [appendBit, if_pos hb]; exact if_neg h

theorem appendBit_of_bad_bit {bit : Byte} {s : State} (hb : ¬ (bit = 0#8 ∨ bit = 1#8)) :
    appendBit bit s = .fault (.raised (s.mark (.badBit bit))) := by
  rw [appendBit, if_neg hb]; rfl

/-- Everything `FB.APPEND_BIT` can do. -/
theorem appendBit_cases (bit : Byte) (s : State) :
    (¬ (bit = 0#8 ∨ bit = 1#8) ∧ appendBit bit s = .fault (.raised (s.mark (.badBit bit)))) ∨
    ((bit = 0#8 ∨ bit = 1#8) ∧ 2047 < (advanceByte s.fb).byteCursor ∧
      appendBit bit s = .fault (.raised (State.mark { s with fb := advanceByte s.fb } (.cursorBound s.pos)))) ∨
    ((bit = 0#8 ∨ bit = 1#8) ∧ (advanceByte s.fb).byteCursor ≤ 2047 ∧
      appendBit bit s = .next { s with fb := appended (crcEnabled s.cfg) bit s.fb }) := by
  by_cases hb : bit = 0#8 ∨ bit = 1#8
  · by_cases h : (advanceByte s.fb).byteCursor ≤ 2047
    · exact .inr (.inr ⟨hb, h, appendBit_of_room hb h⟩)
    · exact .inr (.inl ⟨hb, by omega, appendBit_of_no_room hb h⟩)
  · exact .inl ⟨hb, appendBit_of_bad_bit hb⟩

/-- An append that goes on: its bit, its room, and all it changes. -/
theorem appendBit_eq_next {bit : Byte} {s t : State} (h : appendBit bit s = .next t) :
    (bit = 0#8 ∨ bit = 1#8) ∧ (advanceByte s.fb).byteCursor ≤ 2047 ∧
    t = { s with fb := appended (crcEnabled s.cfg) bit s.fb } := by
  rcases appendBit_cases bit s with ⟨_, e⟩ | ⟨_, _, e⟩ | ⟨hb, hr, e⟩ <;> rw [e] at h <;> cases h
  exact ⟨hb, hr, rfl⟩

end Sys2Proof.Machine
end

