-- ==== Sys2Proof/Laws/Assembler.lean ====
section
/-! SUPPORT. What the flush, the completion evaluation and the `ACCEPT` step can do: one inversion lemma each. -/

namespace Sys2Proof.Machine

/-- The events of one flush, in their order (42_assembler.md R165). -/
def flushEvents (cfg : Byte) (fb : FrameBuffer) : List Event :=
  (if verbose cfg then [.trace (fb.bytes.span 0 (fb.byteCursor + 1))] else []) ++
  (if frameAccepted cfg fb then [.deliver (framePayload cfg fb)] else [])

/-- The count of one flush (42_assembler.md R172). -/
def flushCount (cfg : Byte) (fb : FrameBuffer) : Nat := if frameAccepted cfg fb then payloadEnd cfg fb else 0

theorem frameAccepted_iff (cfg : Byte) (fb : FrameBuffer) :
    frameAccepted cfg fb = true ↔
      crcEnabled cfg = false ∨ crc8Run (fb.bytes.span 0 fb.byteCursor) = fb.bytes.read fb.byteCursor := by
  simp [frameAccepted, currentLength]

theorem frameAccepted_eq_false_iff (cfg : Byte) (fb : FrameBuffer) :
    frameAccepted cfg fb = false ↔
      crcEnabled cfg = true ∧ crc8Run (fb.bytes.span 0 fb.byteCursor) ≠ fb.bytes.read fb.byteCursor := by
  simp [frameAccepted, currentLength]

theorem payloadEnd_eq (cfg : Byte) (fb : FrameBuffer) :
    payloadEnd cfg fb = if crcEnabled cfg then fb.byteCursor - 1 else fb.byteCursor := rfl

@[simp] theorem framePayload_length (cfg : Byte) (fb : FrameBuffer) :
    (framePayload cfg fb).length = payloadEnd cfg fb := by
  simp [framePayload]

theorem flushTrace_eq (s : State) :
    flushTrace s =
      if verbose s.cfg then s.emit (.trace (s.fb.bytes.span 0 (s.fb.byteCursor + 1))) else s := rfl

@[simp] theorem flushTrace_cfg (s : State) : (flushTrace s).cfg = s.cfg := by
  rw [flushTrace_eq]; split <;> rfl

@[simp] theorem flushTrace_fb (s : State) : (flushTrace s).fb = s.fb := by
  rw [flushTrace_eq]; split <;> rfl

/-- The flush inside the buffer: its events, its count, and nothing else. -/
theorem flush_of_inside {s : State} (h : s.fb.byteCursor < 2048) :
    flush s = .next { s with returned := .count (flushCount s.cfg s.fb), events := s.events ++ flushEvents s.cfg s.fb,
                             sent := s.sent ++ flushEvents s.cfg s.fb } := by
  have hin : currentLength s.fb < Config.maxFrameBytes := h
  rw [flush, if_pos hin, flushVerdict, flushTrace_cfg, flushTrace_fb, flushTrace_eq]
  congr 1
  by_cases hv : verbose s.cfg = true <;> by_cases ha : frameAccepted s.cfg s.fb = true <;>
    simp [State.give, deliver, State.emit, flushEvents, flushCount, hv, ha]

theorem flush_of_outside {s : State} (h : 2048 ≤ s.fb.byteCursor) : flush s = .fault (.noSuchByte s.fb.byteCursor) := by
  have hin : ¬ currentLength s.fb < Config.maxFrameBytes := by
    show ¬ s.fb.byteCursor < 2048
    omega
  rw [flush, if_neg hin]; rfl

/-- The completion test (42_assembler.md R159). -/
def FrameBuffer.completes (fb : FrameBuffer) : Bool := fb.normalCompletion || fb.forcedCompletion

theorem FrameBuffer.normalCompletion_iff (fb : FrameBuffer) :
    fb.normalCompletion = true ↔
      fb.bitCursor = 8 ∧ ∃ n, fb.expectedLen = some n ∧ n ≠ 0 ∧ fb.byteCursor = n - 1 := by
  cases h : fb.expectedLen <;> simp [FrameBuffer.normalCompletion, FrameBuffer.byteDone, FrameBuffer.headerKnown, h]

theorem FrameBuffer.forcedCompletion_iff (fb : FrameBuffer) :
    fb.forcedCompletion = true ↔ fb.byteCursor = 2047 := by
  simp [FrameBuffer.forcedCompletion, FrameBuffer.atLimit, Config.maxFrameBytes]

theorem FrameBuffer.completes_iff (fb : FrameBuffer) :
    fb.completes = true ↔
      (fb.bitCursor = 8 ∧ ∃ n, fb.expectedLen = some n ∧ n ≠ 0 ∧ fb.byteCursor = n - 1) ∨ fb.byteCursor = 2047 := by
  rw [FrameBuffer.completes, Bool.or_eq_true, FrameBuffer.normalCompletion_iff, FrameBuffer.forcedCompletion_iff]

/-- The completion of a frame, the declared length in terms of the cursor (42_assembler.md R160, R161). -/
theorem FrameBuffer.completes_iff_length (fb : FrameBuffer) :
    fb.completes = true ↔
      (fb.bitCursor = 8 ∧ fb.expectedLen = some (fb.byteCursor + 1)) ∨ fb.byteCursor = 2047 := by
  rw [FrameBuffer.completes_iff]
  refine or_congr_left (and_congr_right fun _ => ⟨?_, fun h => ⟨_, h, by omega, by omega⟩⟩)
  rintro ⟨n, hn, h0, hc⟩
  rw [hn, hc, Nat.sub_add_cancel (by omega)]

theorem evalCompletion_of_open {s : State} (h : s.fb.completes = false) :
    evalCompletion s = .next { s with returned := .count 0 } := by
  have h' : (s.fb.normalCompletion || s.fb.forcedCompletion) = false := h
  rw [evalCompletion, h']
  simp [State.give]

theorem evalCompletion_of_complete {s : State} (h : s.fb.completes = true) (hin : s.fb.byteCursor < 2048) :
    evalCompletion s = .next { s with mode := .idle, returned := .count (flushCount s.cfg s.fb),
                                      events := s.events ++ flushEvents s.cfg s.fb, sent := s.sent ++ flushEvents s.cfg s.fb } := by
  have h' : (s.fb.normalCompletion || s.fb.forcedCompletion) = true := h
  rw [evalCompletion, h', flush_of_inside hin]
  rfl

theorem evalCompletion_of_outside {s : State} (h : s.fb.completes = true) (hin : 2048 ≤ s.fb.byteCursor) :
    evalCompletion s = .fault (.noSuchByte s.fb.byteCursor) := by
  have h' : (s.fb.normalCompletion || s.fb.forcedCompletion) = true := h
  rw [evalCompletion, h', flush_of_outside hin]
  rfl

/-! ### The `ACCEPT` step -/

theorem accept_of_marked {s : State} {m : FaultMark} (h : s.fault = some m) (bit : Byte) (sync : Bool) :
    accept bit sync s = .fault (.marked m) := by
  simp [accept, h]

theorem accept_of_idle {s : State} (hf : s.fault = none) (hm : s.mode = .idle) (bit : Byte) (sync : Bool) :
    accept bit sync s = acceptIdle bit sync s.takeUnit := by
  simp only [accept, hf, hm]

theorem accept_of_assembling {s : State} (hf : s.fault = none) (hm : s.mode = .assembling) (bit : Byte) (sync : Bool) :
    accept bit sync s = acceptAssembling bit s.takeUnit := by
  simp only [accept, hf, hm]

theorem accept_idle_discard {s : State} (hf : s.fault = none) (hm : s.mode = .idle) (bit : Byte) :
    accept bit false s = .next { s with pos := s.pos + 1, returned := .count 0, events := [] } := by
  rw [accept_of_idle hf hm]; rfl

theorem accept_idle_sync {s : State} (hf : s.fault = none) (hm : s.mode = .idle) {bit : Byte}
    (hb : bit = 0#8 ∨ bit = 1#8) :
    accept bit true s =
      .next { s with mode := .assembling, pos := s.pos + 1, returned := .count 0, events := [],
                     fb := appended (crcEnabled s.cfg) bit FrameBuffer.cleared } := by
  have hroom : (advanceByte (clearBuffer s.takeUnit).fb).byteCursor ≤ 2047 := by simp [advanceByte_byteCursor]
  rw [accept_of_idle hf hm, acceptIdle, if_pos rfl, appendBit_of_room hb hroom]
  rfl

/-- The buffer a frame's first unit leaves (42_assembler.md R154, R155). -/
theorem appended_cleared (crc : Bool) {bit : Byte} (hb : bit = 0#8 ∨ bit = 1#8) :
    appended crc bit FrameBuffer.cleared =
      { bytes := if bit = 0#8 then [] else [(0, bit)], bitCursor := 1, byteCursor := 0, expectedLen := none } := by
  rcases hb with rfl | rfl <;> rfl

theorem accept_assembling_no_room {s : State} (hf : s.fault = none) (hm : s.mode = .assembling) {bit : Byte}
    (hb : bit = 0#8 ∨ bit = 1#8) (sync : Bool) (h : 2047 < (advanceByte s.fb).byteCursor) :
    accept bit sync s =
      .fault (.raised { s with pos := s.pos + 1, fb := advanceByte s.fb, fault := some (.cursorBound (s.pos + 1)),
                               returned := .nothing, events := [] }) := by
  have hno : ¬ (advanceByte s.takeUnit.fb).byteCursor ≤ 2047 := by simpa using h
  rw [accept_of_assembling hf hm, acceptAssembling, appendBit_of_no_room hb hno]
  simp [State.mark, hf]

theorem accept_assembling_open {s : State} (hf : s.fault = none) (hm : s.mode = .assembling) {bit : Byte}
    (hb : bit = 0#8 ∨ bit = 1#8) (sync : Bool) (h : (advanceByte s.fb).byteCursor ≤ 2047)
    (hc : (appended (crcEnabled s.cfg) bit s.fb).completes = false) :
    accept bit sync s =
      .next { s with pos := s.pos + 1, fb := appended (crcEnabled s.cfg) bit s.fb, returned := .count 0,
                     events := [] } := by
  have hroom : (advanceByte s.takeUnit.fb).byteCursor ≤ 2047 := h
  rw [accept_of_assembling hf hm, acceptAssembling, appendBit_of_room hb hroom,
    Result.andThen_next, evalCompletion_of_open hc]
  rfl

theorem accept_assembling_complete {s : State} (hf : s.fault = none) (hm : s.mode = .assembling) {bit : Byte}
    (hb : bit = 0#8 ∨ bit = 1#8) (sync : Bool) (h : (advanceByte s.fb).byteCursor ≤ 2047)
    (hc : (appended (crcEnabled s.cfg) bit s.fb).completes = true) :
    accept bit sync s =
      .next { s with pos := s.pos + 1, fb := appended (crcEnabled s.cfg) bit s.fb, mode := .idle,
                     returned := .count (flushCount s.cfg (appended (crcEnabled s.cfg) bit s.fb)),
                     events := flushEvents s.cfg (appended (crcEnabled s.cfg) bit s.fb),
                     sent := s.sent ++ flushEvents s.cfg (appended (crcEnabled s.cfg) bit s.fb) } := by
  have hroom : (advanceByte s.takeUnit.fb).byteCursor ≤ 2047 := h
  have hin : (appended (crcEnabled s.cfg) bit s.fb).byteCursor < 2048 := by
    rw [appended_byteCursor, ← advanceByte_byteCursor]; omega
  rw [accept_of_assembling hf hm, acceptAssembling, appendBit_of_room hb hroom,
    Result.andThen_next, evalCompletion_of_complete hc hin]
  rfl

/-- A unit runs `ACCEPT` on its two operands, whatever its reserved bits (42_assembler.md R151, 30_encoding.md R73). -/
theorem exec_decodeUnit (u : Byte) (s : State) : exec (decodeUnit u) s = accept (bitByte (unitV u)) (unitS u) s := by
  unfold decodeUnit
  cases unitS u <;> cases unitV u <;> rfl

theorem exec_decodeUnit_eq_acceptUnit (u : Byte) (s : State) : exec (decodeUnit u) s = acceptUnit u s := by
  rw [exec_decodeUnit, acceptUnit, unitBit_eq_bitByte, unitSync_eq_unitS]

/-- Everything an `ACCEPT` step of an unmarked state can do. -/
theorem accept_cases {s : State} (hf : s.fault = none) {bit : Byte} (hb : bit = 0#8 ∨ bit = 1#8) (sync : Bool) :
    (s.mode = .idle ∧ sync = false ∧
      accept bit sync s = .next { s with pos := s.pos + 1, returned := .count 0, events := [] }) ∨
    (s.mode = .idle ∧ sync = true ∧
      accept bit sync s = .next { s with mode := .assembling, pos := s.pos + 1, returned := .count 0, events := [],
                                         fb := appended (crcEnabled s.cfg) bit FrameBuffer.cleared }) ∨
    (s.mode = .assembling ∧ 2047 < (advanceByte s.fb).byteCursor ∧
      accept bit sync s = .fault (.raised { s with pos := s.pos + 1, fb := advanceByte s.fb,
                                                   fault := some (.cursorBound (s.pos + 1)), returned := .nothing,
                                                   events := [] })) ∨
    (s.mode = .assembling ∧ (advanceByte s.fb).byteCursor ≤ 2047 ∧
      (appended (crcEnabled s.cfg) bit s.fb).completes = false ∧
      accept bit sync s = .next { s with pos := s.pos + 1, fb := appended (crcEnabled s.cfg) bit s.fb,
                                         returned := .count 0, events := [] }) ∨
    (s.mode = .assembling ∧ (advanceByte s.fb).byteCursor ≤ 2047 ∧
      (appended (crcEnabled s.cfg) bit s.fb).completes = true ∧
      accept bit sync s = .next { s with pos := s.pos + 1, fb := appended (crcEnabled s.cfg) bit s.fb, mode := .idle,
                                         returned := .count (flushCount s.cfg (appended (crcEnabled s.cfg) bit s.fb)),
                                         events := flushEvents s.cfg (appended (crcEnabled s.cfg) bit s.fb),
                                         sent := s.sent ++ flushEvents s.cfg (appended (crcEnabled s.cfg) bit s.fb) }) := by
  obtain hm | hm : s.mode = .idle ∨ s.mode = .assembling := by cases s.mode <;> simp
  · cases sync with
    | false => exact .inl ⟨hm, rfl, accept_idle_discard hf hm bit⟩
    | true => exact .inr (.inl ⟨hm, rfl, accept_idle_sync hf hm hb⟩)
  · by_cases hroom : (advanceByte s.fb).byteCursor ≤ 2047
    · cases hc : (appended (crcEnabled s.cfg) bit s.fb).completes with
      | false => exact .inr (.inr (.inr (.inl ⟨hm, hroom, rfl, accept_assembling_open hf hm hb sync hroom hc⟩)))
      | true => exact .inr (.inr (.inr (.inr ⟨hm, hroom, rfl, accept_assembling_complete hf hm hb sync hroom hc⟩)))
    · have h : 2047 < (advanceByte s.fb).byteCursor := by omega
      exact .inr (.inr (.inl ⟨hm, h, accept_assembling_no_room hf hm hb sync h⟩))

/-- Everything an `ACCEPT` step can do where it goes on: the state was unmarked and stays so. -/
theorem accept_eq_next {bit : Byte} (hb : bit = 0#8 ∨ bit = 1#8) {sync : Bool} {s t : State}
    (h : accept bit sync s = .next t) :
    s.fault = none ∧
    ((s.mode = .idle ∧ sync = false ∧ t = { s with pos := s.pos + 1, returned := .count 0, events := [] }) ∨
     (s.mode = .idle ∧ sync = true ∧
      t = { s with mode := .assembling, pos := s.pos + 1, returned := .count 0, events := [],
                   fb := appended (crcEnabled s.cfg) bit FrameBuffer.cleared }) ∨
     (s.mode = .assembling ∧ (appended (crcEnabled s.cfg) bit s.fb).completes = false ∧
      t = { s with pos := s.pos + 1, fb := appended (crcEnabled s.cfg) bit s.fb, returned := .count 0, events := [] }) ∨
     (s.mode = .assembling ∧ (appended (crcEnabled s.cfg) bit s.fb).completes = true ∧
      t = { s with pos := s.pos + 1, fb := appended (crcEnabled s.cfg) bit s.fb, mode := .idle,
                   returned := .count (flushCount s.cfg (appended (crcEnabled s.cfg) bit s.fb)),
                   events := flushEvents s.cfg (appended (crcEnabled s.cfg) bit s.fb),
                   sent := s.sent ++ flushEvents s.cfg (appended (crcEnabled s.cfg) bit s.fb) })) := by
  have hf : s.fault = none := by
    cases hf : s.fault with
    | some m => rw [accept_of_marked hf] at h; exact nomatch h
    | none => rfl
  refine ⟨hf, ?_⟩
  rcases accept_cases hf hb sync with ⟨hm, hs, e⟩ | ⟨hm, hs, e⟩ | ⟨_, _, e⟩ | ⟨hm, _, hc, e⟩ | ⟨hm, _, hc, e⟩ <;>
    rw [e] at h <;> cases h
  · exact .inl ⟨hm, hs, rfl⟩
  · exact .inr (.inl ⟨hm, hs, rfl⟩)
  · exact .inr (.inr (.inl ⟨hm, hc, rfl⟩))
  · exact .inr (.inr (.inr ⟨hm, hc, rfl⟩))

end Sys2Proof.Machine
end

