-- ==== Sys2Proof/Laws/Batch.lean ====
section
/-! SUPPORT. What a batch of units and a sequence of operations can do: how each ends, and how each goes on. -/

namespace Sys2Proof.Machine

theorem runBatch_nil_of_unmarked {s : State} (h : s.fault = none) : runBatch [] s = .next (s, 0) := by
  simp [runBatch, State.final_of_unmarked h]

/-- An empty batch ends where it starts, unmarked (60_exceptions.md R213). -/
theorem runBatch_nil_eq_next {s t : State} {n : Nat} (h : runBatch [] s = .next (t, n)) :
    t = s ∧ n = 0 ∧ s.fault = none := by
  cases hf : s.fault with
  | none => simp [runBatch, State.final_of_unmarked hf] at h; exact ⟨h.1.symm, h.2.symm, rfl⟩
  | some m => simp [runBatch, State.final_of_marked hf] at h

theorem runBatch_cons_of {u : Byte} {us : List Byte} {s t t' : State} {n : Nat}
    (h : exec (decodeUnit u) s = .next t) (hr : runBatch us t = .next (t', n)) :
    runBatch (u :: us) s = .next (t', t.count + n) := by
  simp [runBatch, h, hr]

/-- A batch that goes on runs its first unit, then the rest. -/
theorem runBatch_cons_eq_next {u : Byte} {us : List Byte} {s t' : State} {n : Nat}
    (h : runBatch (u :: us) s = .next (t', n)) :
    ∃ t k, exec (decodeUnit u) s = .next t ∧ runBatch us t = .next (t', k) ∧ n = t.count + k := by
  simp only [runBatch] at h
  cases he : exec (decodeUnit u) s with
  | next t =>
    simp only [he] at h
    cases hr : runBatch us t with
    | next r =>
      obtain ⟨t1, k⟩ := r
      simp only [hr, Host.Outcome.next.injEq, Prod.mk.injEq] at h
      exact ⟨t, k, rfl, by rw [hr, h.1], h.2.symm⟩
    | fault r => simp [hr] at h
    | refused r => simp [hr] at h
  | fault r => simp [he] at h
  | refused r => simp [he] at h

theorem runInstrs_nil_of_unmarked {s : State} (h : s.fault = none) : runInstrs [] s = .next s :=
  State.final_of_unmarked h

theorem runInstrs_cons_of {i : Instr} {is : List Instr} {s t : State} (h : exec i s = .next t) :
    runInstrs (i :: is) s = runInstrs is t := by
  rw [runInstrs, h]; rfl

/-- A sequence that goes on runs its first operation, then the rest. -/
theorem runInstrs_cons_eq_next {i : Instr} {is : List Instr} {s t' : State} (h : runInstrs (i :: is) s = .next t') :
    ∃ t, exec i s = .next t ∧ runInstrs is t = .next t' :=
  Result.andThen_eq_next h

end Sys2Proof.Machine
end

