-- ==== Sys2Proof/Laws/PerInstr.lean ====
section
/-! SUPPORT. Statements about every operation as syntax, one lemma per constructor. -/

/-- The family: decoding the unit of a command gives the command back, with its ignored bits. -/
def Sys2Proof.Laws.RoundTrip.Statement (i : Sys2Proof.Instr) : Prop :=
  ∀ (u : Sys2Proof.Byte) (rest : List Sys2Proof.Byte), Sys2Proof.encode i = some u →
    Sys2Proof.decode (u :: rest) = .ok (i, rest)

namespace Sys2Proof.Laws.RoundTrip

theorem acceptD0 (rsvd : BitVec 6) : Statement (.acceptD0 rsvd) := by
  intro u rest h; cases h; simp [decode, decodeUnit]

theorem acceptD1 (rsvd : BitVec 6) : Statement (.acceptD1 rsvd) := by
  intro u rest h; cases h; simp [decode, decodeUnit]

theorem acceptS0 (rsvd : BitVec 6) : Statement (.acceptS0 rsvd) := by
  intro u rest h; cases h; simp [decode, decodeUnit]

theorem acceptS1 (rsvd : BitVec 6) : Statement (.acceptS1 rsvd) := by
  intro u rest h; cases h; simp [decode, decodeUnit]

theorem crc8Update (reg byte : Byte) : Statement (.crc8Update reg byte) := fun _ _ h => nomatch h

theorem crc8Run (data : List Byte) : Statement (.crc8Run data) := fun _ _ h => nomatch h

theorem fbReset : Statement .fbReset := fun _ _ h => nomatch h

theorem fbAppendBit (bit : Byte) : Statement (.fbAppendBit bit) := fun _ _ h => nomatch h

theorem fbCurrentLength : Statement .fbCurrentLength := fun _ _ h => nomatch h

theorem fbIsHeaderKnown : Statement .fbIsHeaderKnown := fun _ _ h => nomatch h

theorem faEvalCompletion : Statement .faEvalCompletion := fun _ _ h => nomatch h

theorem faFlush : Statement .faFlush := fun _ _ h => nomatch h

theorem sinkDeliver (payload : List Byte) : Statement (.sinkDeliver payload) := fun _ _ h => nomatch h

theorem traceEmit (bytes : List Byte) : Statement (.traceEmit bytes) := fun _ _ h => nomatch h

theorem reset (cfg : Byte) : Statement (.reset cfg) := fun _ _ h => nomatch h

end Sys2Proof.Laws.RoundTrip
end

