-- ==== Sys2Proof/Tests/Slice0.lean ====
section
/-! SUPPORT. Small tests with results taken from spec/ (the vectors of 95_test_vectors.md and the rules), and for each
statement with hypotheses a witness that meets them. -/

namespace Sys2Proof.Tests

open Sys2Proof Sys2Proof.Machine

/-! ### Helpers -/

/-- The next state, where there is one. -/
def after : Result → Option State
  | .next t => some t
  | .fault _ => none
  | .refused _ => none

/-- The reason of a fault, where there is one. -/
def faultOf : Result → Option Fault
  | .next _ => none
  | .fault r => some r
  | .refused _ => none

/-- The reason of a refusal, where there is one. -/
def refusalOf : Result → Option Refusal
  | .next _ => none
  | .fault _ => none
  | .refused r => some r

/-- A state that is assembling a frame. -/
def assemblingWith (cfg : Byte) (bytes : Memory) (bitCursor byteCursor : Nat) (expectedLen : Option Nat) : State :=
  { State.reset with cfg := cfg, mode := .assembling, fb := ⟨bytes, bitCursor, byteCursor, expectedLen⟩ }

/-- An idle state with this configuration. -/
def idleWith (cfg : Byte) : State := { State.reset with cfg := cfg }

/-- The frame `02 A5 3C` with CRC disabled, one bit short (V-A8, V-X1). -/
def oneBitShort (cfg : Byte) : State := assemblingWith cfg [(0, 0x02#8), (1, 0xA5#8), (2, 0x1E#8)] 7 2 (some 3)

/-- The frame `02 A5 3C` with CRC disabled, complete (V-X1, V-X2). -/
def wholeFrame (cfg : Byte) : State := assemblingWith cfg [(0, 0x02#8), (1, 0xA5#8), (2, 0x3C#8)] 8 2 (some 3)

/-- Header 0 with CRC enabled, and seven zero bits of the CRC byte: one bit short. -/
def crcByteOpen (cfg : Byte) : State := assemblingWith cfg [] 7 1 (some 2)

/-- The runaway frame of program P5, with byte 2046 full (30_encoding.md R83, 42_assembler.md R175). -/
def runaway (cfg : Byte) : State := assemblingWith cfg [] 8 2046 (some 1)

/-- The buffer that cannot take another bit. -/
def full : State := assemblingWith 0x00#8 [] 8 2047 (some 1)

/-- A marked state. -/
def marked : State := { State.reset with fault := some (.badBit 2#8) }

/-! ### Decoding: units written out from 30_encoding.md R70 and R71 -/

theorem test_decode_acceptD0 : decode [0b00000000#8] = .ok (.acceptD0 0b000000#6, []) := by rfl
theorem test_decode_acceptD1 : decode [0b11111101#8] = .ok (.acceptD1 0b111111#6, []) := by rfl
theorem test_decode_acceptS0 : decode [0b11111110#8, 0x01#8] = .ok (.acceptS0 0b111111#6, [0x01#8]) := by rfl
theorem test_decode_acceptS1 : decode [0b01000011#8] = .ok (.acceptS1 0b010000#6, []) := by rfl
theorem test_decode_nothing : decode [] = .error .noUnit := by rfl

theorem test_encode_acceptD0 : encode (.acceptD0 0b100000#6) = some 0b10000000#8 := by decide
theorem test_encode_acceptD1 : encode (.acceptD1 0b000001#6) = some 0b00000101#8 := by decide
theorem test_encode_acceptS0 : encode (.acceptS0 0b000000#6) = some 0b00000010#8 := by decide
theorem test_encode_acceptS1 : encode (.acceptS1 0b111111#6) = some 0b11111111#8 := by decide
theorem test_encode_internal : encode .fbReset = none := by decide

theorem test_tableWord_acceptS0 : decodeTableWord 8 0b00000010 = some (.acceptS0 0#6) := by decide
theorem test_tableWord_acceptD1 : decodeTableWord 8 0b00000001 = some (.acceptD1 0#6) := by decide

/-- V-A6 through the queue: `0xFE` is `S0` and starts a frame. -/
theorem test_fetchWord_runs :
    after (step (State.reset.withFetchWord 8 0xFE)) =
      some { State.reset with mode := .assembling, pos := 1, returned := .count 0, fb := ⟨[], 1, 0, none⟩ } := by decide

/-- I16: no step without a unit. -/
theorem test_step_without_unit : refusalOf (step State.reset) = some .awaitingUnit := by decide

/-! ### WellFormed refuses an ill-formed term for each check -/

theorem test_wf_crc8Run : Instr.wf (.crc8Run (List.replicate 2048 0#8)) = false := by
  simp only [Instr.wf, List.length_replicate]; decide
theorem test_wf_fbAppendBit : Instr.wf (.fbAppendBit 2#8) = false := by decide
theorem test_wf_sinkDeliver : Instr.wf (.sinkDeliver (List.replicate 2048 0#8)) = false := by
  simp only [Instr.wf, List.length_replicate]; decide
theorem test_wf_traceEmit_empty : Instr.wf (.traceEmit []) = false := by decide
theorem test_wf_traceEmit_long : Instr.wf (.traceEmit (List.replicate 2049 0#8)) = false := by
  simp only [Instr.wf, List.length_replicate]; decide
theorem test_wf_reset_drop_differs : Instr.wf (.reset 0x01#8) = false := by decide
theorem test_wf_reset_reserved : Instr.wf (.reset 0x08#8) = false := by decide
theorem test_wf_accepts : Instr.wf (.traceEmit [0#8]) = true ∧ Instr.wf (.reset 0x07#8) = true := by decide

/-! ### The meanings -/

/-- V-A5: discarded; only the position changes. -/
theorem test_acceptD0_idle :
    after (exec (decodeUnit 0xFC#8) State.reset) = some { State.reset with pos := 1, returned := .count 0 } := by decide

/-- V-A8: the last bit completes the frame `02 A5 3C`. -/
theorem test_acceptD0_completes :
    (after (exec (.acceptD0 0#6) (oneBitShort 0x00#8))).map (fun t => (t.mode, t.returned, t.events)) =
      some (.idle, .count 2, [.deliver [0xA5#8, 0x3C#8]]) := by decide

/-- V-A2: discarded. -/
theorem test_acceptD1_idle :
    after (exec (.acceptD1 0#6) State.reset) = some { State.reset with pos := 1, returned := .count 0 } := by decide

/-- V-X10: the forced completion delivers 2047 bytes. -/
theorem test_acceptD1_forced :
    (after (exec (.acceptD1 0#6) (runaway 0x00#8))).map (fun t => (t.mode, t.returned, t.fb.byteCursor, t.fb.bitCursor)) =
      some (.idle, .count 2047, 2047, 1) := by
  have hc : (appended (crcEnabled 0x00#8) 1#8 (runaway 0x00#8).fb).completes = true := by decide
  have h := accept_assembling_complete (s := runaway 0x00#8) rfl rfl (bit := 1#8) (.inr rfl) false (by decide) hc
  simp only [exec, execAcceptD1, h, after, Option.map_some]
  rfl

/-- V-A3: a frame starts. -/
theorem test_acceptS0_idle :
    after (exec (.acceptS0 0#6) { State.reset with fb := ⟨[(0, 0x02#8)], 8, 2, some 3⟩ }) =
      some { State.reset with mode := .assembling, pos := 1, returned := .count 0, fb := ⟨[], 1, 0, none⟩ } := by decide

/-- V-A4: a frame starts with a 1. -/
theorem test_acceptS1_idle :
    (after (exec (.acceptS1 0#6) State.reset)).map (fun t => (t.mode, t.fb)) =
      some (.assembling, ⟨[(0, 0x01#8)], 1, 0, none⟩) := by decide

/-- V-A7: while assembling, a sync unit is an ordinary 1 (with `FB[1] = 0b101`, as in section 2.4). -/
theorem test_acceptS1_assembling :
    (after (exec (.acceptS1 0#6) (assemblingWith 0x00#8 [(0, 0x02#8), (1, 0b101#8)] 3 1 (some 3)))).map
        (fun t => (t.mode, t.returned, t.fb)) =
      some (.assembling, .count 0, ⟨[(0, 0x02#8), (1, 0x0B#8)], 4, 1, some 3⟩) := by decide

/-- 60_exceptions.md R213: a marked state is never a final state. -/
theorem test_step_marked : faultOf (step marked) = some (.marked (.badBit 2#8)) := by decide

/-- 60_exceptions.md R213: no `ACCEPT` step in a marked state. -/
theorem test_accept_marked : faultOf (exec (.acceptS0 0#6) marked) = some (.marked (.badBit 2#8)) := by decide

/-- V-C3. -/
theorem test_crc8Update :
    exec (.crc8Update 0x0F#8 0xF0#8) State.reset =
      .next { State.reset with returned := .byte (Config.crc8Table 0xFF#8) } := by rfl

/-- V-R4. -/
theorem test_crc8Run :
    exec (.crc8Run [0x01#8, 0xFF#8]) State.reset =
      .next { State.reset with returned := .byte (Config.crc8Table (Config.crc8Table 0x01#8 ^^^ 0xFF#8)) } := by rfl

/-- V-R1. -/
theorem test_crc8Run_empty : exec (.crc8Run []) State.reset = .next { State.reset with returned := .byte 0x00#8 } := by rfl

/-- V-F1. -/
theorem test_fbReset :
    (after (exec .fbReset (wholeFrame 0x00#8))).map (fun t => (t.fb, t.mode)) = some (⟨[], 0, 0, none⟩, .assembling) := by
  decide

/-- V-H4: header 0xFF with CRC enabled latches 257, with no wrap; the first bit of byte 1 is written. -/
theorem test_fbAppendBit_latch :
    (after (exec (.fbAppendBit 1#8) (assemblingWith 0x05#8 [(0, 0xFF#8)] 8 0 none))).map (·.fb) =
      some ⟨[(0, 0xFF#8), (1, 0x01#8)], 1, 1, some 257⟩ := by decide

/-- The partial-byte vector of section 2.4. -/
theorem test_fbAppendBit_partial :
    (after (exec (.fbAppendBit 1#8) (assemblingWith 0x00#8 [(1, 0b101#8)] 3 1 (some 1)))).map (·.fb) =
      some ⟨[(1, 0x0B#8)], 4, 1, some 1⟩ := by decide

/-- Section 2.4, k = 8 and k = 17. -/
theorem test_fbCurrentLength :
    (after (exec .fbCurrentLength (assemblingWith 0x05#8 [(0, 0xA5#8)] 8 0 none))).map (·.returned) = some (.index 0) ∧
    (after (exec .fbCurrentLength (assemblingWith 0x05#8 [(0, 0xA5#8)] 1 2 (some 167)))).map (·.returned) =
      some (.index 2) := by decide

/-- Section 2.4, k = 8 and k = 9. -/
theorem test_fbIsHeaderKnown :
    (after (exec .fbIsHeaderKnown (assemblingWith 0x05#8 [(0, 0xA5#8)] 8 0 none))).map (·.returned) = some (.flag false) ∧
    (after (exec .fbIsHeaderKnown (assemblingWith 0x05#8 [(0, 0xA5#8), (1, 1#8)] 1 1 (some 167)))).map (·.returned) =
      some (.flag true) := by decide

/-- V-X1. -/
theorem test_faEvalCompletion :
    (after (exec .faEvalCompletion (wholeFrame 0x00#8))).map (fun t => (t.mode, t.returned, t.events)) =
      some (.idle, .count 2, [.deliver [0xA5#8, 0x3C#8]]) := by decide

/-- V-X11: the header alone does not complete. -/
theorem test_faEvalCompletion_open :
    (after (exec .faEvalCompletion (assemblingWith 0x00#8 [] 8 0 none))).map (fun t => (t.mode, t.returned, t.events)) =
      some (.assembling, .count 0, []) := by decide

/-- V-X2: the trace comes first. -/
theorem test_faFlush_verbose :
    (after (exec .faFlush (wholeFrame 0x02#8))).map (fun t => (t.mode, t.returned, t.events)) =
      some (.assembling, .count 2, [.trace [0x02#8, 0xA5#8, 0x3C#8], .deliver [0xA5#8, 0x3C#8]]) := by decide

/-- V-X5 and V-X6, whatever the table holds: header 0 with CRC enabled is delivered empty exactly when byte 1 is `T[0]`. -/
theorem test_faFlush_crc (c : Byte) :
    (after (exec .faFlush (assemblingWith 0x05#8 (Memory.write [] 1 c) 8 1 (some 2)))).map (·.events) =
      some (if Config.crc8Table 0x00#8 = c then [.deliver []] else []) := by
  simp only [exec, execFaFlush]
  rw [flush_of_inside (show 1 < 2048 by decide)]
  have hr : Memory.read (Memory.write [] 1 c) 1 = c := Memory.read_write_same rfl 1 c
  have h0 : Memory.read (Memory.write [] 1 c) 0 = 0#8 := Memory.read_write_other rfl (by decide) c
  have ha : frameAccepted 0x05#8 ⟨Memory.write [] 1 c, 8, 1, some 2⟩ = decide (Config.crc8Table 0x00#8 = c) := by
    have hs : crc8Run (Memory.span (Memory.write [] 1 c) 0 1) = Config.crc8Table 0x00#8 := by
      simp [Memory.span, h0, crc8Run, crc8Update, Config.crc8Init]
    simp only [frameAccepted, currentLength, hs, hr]
    by_cases h : Config.crc8Table 0x00#8 = c <;> simp [h, crcEnabled]
  simp only [after, assemblingWith, State.begin_cfg, State.begin_fb, State.begin_events, Option.map_some, flushEvents, ha]
  by_cases h : Config.crc8Table 0x00#8 = c <;> simp [h, verbose, framePayload, payloadEnd, crcEnabled, currentLength]

/-- 43_framesink.md R191: the empty payload is delivered too. -/
theorem test_sinkDeliver :
    after (exec (.sinkDeliver []) State.reset) = some { State.reset with events := [.deliver []], sent := [.deliver []] } := by
  decide

/-- 43_framesink.md R194. -/
theorem test_traceEmit :
    after (exec (.traceEmit [0x02#8]) { State.reset with sent := [.deliver []] }) =
      some { State.reset with events := [.trace [0x02#8]], sent := [.deliver [], .trace [0x02#8]] } := by decide

/-- 70_reset_and_hazards.md R240: within a frame, the frame is gone. -/
theorem test_reset :
    after (exec (.reset 0x05#8) (oneBitShort 0x02#8)) = some (idleWith 0x05#8) := by decide

/-- 30_encoding.md R76: `drop_crc` set with CRC disabled is refused. -/
theorem test_reset_illegal : refusalOf (exec (.reset 0x04#8) State.reset) = some (.illegalConfig 0x04#8) := by decide

/-! ### Well-formed states the witnesses use -/

theorem inv_reset : State.reset.Inv where
  cfg_legal := by decide
  unmarked := rfl
  buffer := ⟨by decide, by decide, by decide, fun _ _ => rfl, fun _ h => nomatch h⟩
  open_frame := fun h => nomatch h
  events_sent := ⟨[], rfl⟩
  events_bounded := fun _ h => nomatch h

theorem inv_oneBitShort : (oneBitShort 0x00#8).Inv where
  cfg_legal := by decide
  unmarked := rfl
  buffer := by
    refine ⟨by decide, by decide, by decide, fun i h => ?_, fun n h => ?_⟩
    · have h' : 2 < i := h
      simp [oneBitShort, assemblingWith, Memory.read, Memory.unlisted, show i ≠ 0 by omega, show i ≠ 1 by omega,
        show i ≠ 2 by omega]
    · cases h; decide
  open_frame := fun _ => ⟨by decide, by decide, by decide, fun n h _ => by cases h; decide, by decide, by decide⟩
  events_sent := ⟨[], rfl⟩
  events_bounded := fun _ h => nomatch h

/-- A frame is open when only zero bits came, the length is the one header 0 declares, and nothing has completed. -/
theorem inv_zeros {cfg : Byte} {bit byte n : Nat} (hc : legalCfg cfg = true) (hb : bit ≤ 8) (h1 : 1 ≤ bit)
    (hB : byte ≤ 2046) (hy : 1 ≤ byte) (hn : n = 0 + (if crcEnabled cfg then 1 else 0) + 1)
    (hw : n ≠ 1 → byte ≤ n - 1) (hno : (FrameBuffer.mk [] bit byte (some n)).normalCompletion = false) :
    (assemblingWith cfg [] bit byte (some n)).Inv where
  cfg_legal := hc
  unmarked := rfl
  buffer := by
    refine ⟨hb, show byte ≤ 2047 by omega, rfl, fun _ _ => rfl, fun m h => ?_⟩
    cases h; exact hn
  open_frame := fun _ => by
    refine ⟨h1, by simpa [assemblingWith] using hy, Nat.two_pow_pos _, fun m h => ?_, hno, ?_⟩
    · cases h; exact hw
    · simp [assemblingWith, FrameBuffer.forcedCompletion, FrameBuffer.atLimit, Config.maxFrameBytes]; omega
  events_sent := ⟨[], rfl⟩
  events_bounded := fun _ h => nomatch h

theorem inv_crcByteOpen : (crcByteOpen 0x05#8).Inv :=
  inv_zeros (by decide) (by decide) (by decide) (by decide) (by decide) (by decide) (by decide) (by decide)

theorem inv_runaway : (runaway 0x00#8).Inv :=
  inv_zeros (by decide) (by decide) (by decide) (by decide) (by decide) (by decide) (by decide) (by decide)

/-! ### Witnesses: the hypotheses of each statement, met -/

/-- One unit for each row. -/
theorem witness_UnitBitsSelectCommand :
    (0xFC#8 &&& 0x03#8) = 0x00#8 ∧ (0xFD#8 &&& 0x03#8) = 0x01#8 ∧ (0xFE#8 &&& 0x03#8) = 0x02#8 ∧
    (0xFF#8 &&& 0x03#8) = 0x03#8 := by decide

theorem witness_UnitStreamsDecodeAndEncodeAgree :
    encodeStream [.acceptS1 0#6, .acceptD0 0b111111#6] = some [0x03#8, 0xFC#8] := by decide

theorem witness_ReservedUnitBitsAreIgnored : (0xFE#8 &&& 0x03#8) = (0x02#8 &&& 0x03#8) := by decide

theorem witness_ReservedUnitBitsNeverMatterInARun :
    [0xFE#8, 0xFD#8].map (· &&& 0x03#8) = [0x02#8, 0x01#8].map (· &&& 0x03#8) := by decide

/-- One state for each of the four clauses. -/
theorem witness_StepRunsTheDecodedUnit :
    (∃ s : State, s.inputs = [.unit 0x02#8] ∧ decode [0x02#8] = .ok (.acceptS0 0#6, [])) ∧
    (∃ s : State, s.inputs = [.reset 0x05#8]) ∧ (State.reset.inputs = [] ∧ State.reset.fault = none) ∧
    marked.inputs = [] ∧ marked.fault = some (.badBit 2#8) :=
  ⟨⟨State.reset.present [0x02#8], rfl, rfl⟩, ⟨{ State.reset with inputs := [.reset 0x05#8] }, rfl⟩, ⟨rfl, rfl⟩, rfl, rfl⟩

theorem witness_IdleDataUnitIsDiscarded : State.reset.fault = none ∧ State.reset.mode = .idle := by decide

theorem witness_IdleSyncUnitStartsFrame :
    ({ State.reset with fb := (wholeFrame 0x00#8).fb } : State).fault = none ∧
    ({ State.reset with fb := (wholeFrame 0x00#8).fb } : State).mode = .idle := by decide

/-- What the two statements about an assembling unit assume, as one proposition. -/
def canTakeBit (s : State) : Prop :=
  s.fault = none ∧ s.mode = .assembling ∧ s.fb.bytes.wf = true ∧ s.fb.byteCursor ≤ 2047 ∧
  (s.fb.bitCursor = 8 → s.fb.byteCursor < 2047)

/-- A shifted bit that completes the frame, the first bit of the second byte, which does not, and the last byte of the
buffer. -/
theorem witness_AssemblingUnitAppendsItsBit :
    (after (exec (.acceptS1 0#6) (assemblingWith 0x05#8 [(0, 0xFF#8)] 8 0 none))).map (·.mode) = some .assembling ∧
    (after (exec (.acceptD0 0#6) (oneBitShort 0x00#8))).map (·.mode) = some .idle ∧
    carriesBit (.acceptD0 0#6) 0#8 ∧ carriesBit (.acceptS1 0#6) 1#8 ∧ canTakeBit (oneBitShort 0x00#8) ∧
    canTakeBit (assemblingWith 0x05#8 [(0, 0xFF#8)] 8 0 none) ∧ canTakeBit (runaway 0x00#8) ∧
    canTakeBit (assemblingWith 0x00#8 [] 7 2047 (some 1)) :=
  ⟨by decide, by decide, .inl ⟨⟨_, .inl rfl⟩, rfl⟩, .inr ⟨⟨_, .inr rfl⟩, rfl⟩, by simp [canTakeBit]; decide, by simp [canTakeBit]; decide,
    by simp [canTakeBit]; decide, by simp [canTakeBit]; decide⟩

/-- No completion, a normal one, a forced one. -/
theorem witness_AssemblingUnitCompletesTheFrame :
    canTakeBit (assemblingWith 0x00#8 [] 6 2 (some 3)) ∧ canTakeBit (oneBitShort 0x00#8) ∧ canTakeBit (runaway 0x00#8) ∧
    (after (exec (.acceptD0 0#6) (assemblingWith 0x00#8 [] 6 2 (some 3)))).map (·.mode) = some .assembling ∧
    (after (exec (.acceptD0 0#6) (oneBitShort 0x00#8))).map (·.mode) = some .idle :=
  ⟨by simp [canTakeBit]; decide, by simp [canTakeBit]; decide, by simp [canTakeBit]; decide, by decide, by decide⟩

theorem witness_SyncWhileAssemblingIsAnOrdinaryBit : (oneBitShort 0x00#8).mode = .assembling := by decide

/-- A last bit that makes the CRC byte differ from `T[0]`, whatever the table holds. -/
theorem exists_wrong_crc_bit :
    ∃ b : Byte, (b = 0#8 ∨ b = 1#8) ∧ crc8Run [0#8] ≠ b := by
  by_cases h : crc8Run [0#8] = 1#8
  · exact ⟨0#8, .inl rfl, by rw [h]; decide⟩
  · exact ⟨1#8, .inr rfl, h⟩

/-- The frame `00` with CRC enabled after its last CRC bit `b`. -/
theorem crcByteOpen_step {i : Instr} {b : Byte} (hi : carriesBit i b) (cfg : Byte) :
    ∃ t, exec i (crcByteOpen cfg) = .next t ∧ t.fault = none ∧ t.fb.bitCursor = 8 ∧ t.fb.byteCursor = 1 ∧
      t.fb.expectedLen = some 2 ∧ t.fb.bytes.span 0 1 = [0#8] ∧ t.fb.bytes.read 1 = b ∧
      t.fb = appended (crcEnabled cfg) b (crcByteOpen cfg).fb := by
  have hb : b = 0#8 ∨ b = 1#8 := by
    rcases hi with ⟨-, h⟩ | ⟨-, h⟩
    · exact .inl h
    · exact .inr h
  have hfb : appended (crcEnabled cfg) b (crcByteOpen cfg).fb = ⟨if b = 0#8 then [] else [(1, b)], 8, 1, some 2⟩ := by
    have h : ∀ c : Bool, appended c b ⟨[], 7, 1, some 2⟩ = ⟨if b = 0#8 then [] else [(1, b)], 8, 1, some 2⟩ := by
      rcases hb with rfl | rfl <;> decide
    exact h _
  have hc : (appended (crcEnabled cfg) b (crcByteOpen cfg).fb).completes = true := by rw [hfb]; rfl
  have he : ∀ sync, accept b sync (crcByteOpen cfg) = _ := fun sync =>
    accept_assembling_complete (s := crcByteOpen cfg) rfl rfl hb sync (show 1 ≤ 2047 by decide) hc
  have hx : ∃ sync, exec i (crcByteOpen cfg) = accept b sync (crcByteOpen cfg) := by
    rcases hi with ⟨⟨r, rfl | rfl⟩, rfl⟩ | ⟨⟨r, rfl | rfl⟩, rfl⟩
    exacts [⟨false, rfl⟩, ⟨true, rfl⟩, ⟨false, rfl⟩, ⟨true, rfl⟩]
  obtain ⟨sync, hx⟩ := hx
  refine ⟨_, hx.trans (he sync), rfl, ?_⟩
  simp only [show (crcByteOpen cfg).cfg = cfg from rfl, hfb]
  rcases hb with rfl | rfl <;> exact ⟨trivial, trivial, trivial, rfl, rfl, trivial⟩

theorem witness_RejectedFrameIsSilent :
    ∃ (i : Instr) (b : Byte) (s t : State), carriesBit i b ∧ s.mode = .assembling ∧ exec i s = .next t ∧
      ((t.fb.bitCursor = 8 ∧ t.fb.expectedLen = some (t.fb.byteCursor + 1)) ∨ t.fb.byteCursor = 2047) ∧
      crcEnabled s.cfg = true ∧ crc8Run (t.fb.bytes.span 0 t.fb.byteCursor) ≠ t.fb.bytes.read t.fb.byteCursor := by
  obtain ⟨b, hb, hne⟩ := exists_wrong_crc_bit
  obtain ⟨i, hi⟩ : ∃ i, carriesBit i b := by
    rcases hb with rfl | rfl
    · exact ⟨.acceptD0 0#6, .inl ⟨⟨_, .inl rfl⟩, rfl⟩⟩
    · exact ⟨.acceptD1 0#6, .inr ⟨⟨_, .inl rfl⟩, rfl⟩⟩
  obtain ⟨t, h1, h2, h3, h4, h5, h6, h7, -⟩ := crcByteOpen_step hi 0x07#8
  refine ⟨i, b, crcByteOpen 0x07#8, t, hi, rfl, h1, .inl ⟨h3, by rw [h5, h4]⟩, by decide, ?_⟩
  rw [h4, h6, h7]; exact hne

/-- A well-formed state and a unit for each label but the one that is not reached. -/
theorem witness_StepLabelTellsTheOutcome :
    (State.reset.Inv ∧ stepLabel 0#8 false State.reset = .discard ∧ stepLabel 1#8 true State.reset = .start) ∧
    (∃ s : State, s.Inv ∧ stepLabel 0#8 false s = .continue) ∧
    ((oneBitShort 0x00#8).Inv ∧ stepLabel 0#8 false (oneBitShort 0x00#8) = .accepted) ∧
    (∃ u s, State.Inv s ∧ stepLabel (unitBit u) (unitSync u) s = .rejected) ∧
    ((runaway 0x00#8).Inv ∧ stepLabel 1#8 false (runaway 0x00#8) = .forcedAccepted) := by
  refine ⟨⟨inv_reset, by decide, by decide⟩, ⟨assemblingWith 0x00#8 [] 1 1 (some 1),
    inv_zeros (by decide) (by decide) (by decide) (by decide) (by decide) (by decide) (by decide) (by decide), by decide⟩,
    ⟨inv_oneBitShort, by decide⟩, ?_, ⟨inv_runaway, by decide⟩⟩
  obtain ⟨b, hb, hne⟩ := exists_wrong_crc_bit
  refine ⟨b, crcByteOpen 0x05#8, inv_crcByteOpen, ?_⟩
  have hb' : unitBit b = b := by rcases hb with rfl | rfl <;> rfl
  obtain ⟨t, h1, h2, h3, h4, h5, h6, h7, h8⟩ :=
    crcByteOpen_step (i := if b = 0#8 then .acceptD0 0#6 else .acceptD1 0#6) (b := b)
      (by rcases hb with rfl | rfl
          · exact .inl ⟨⟨_, .inl rfl⟩, rfl⟩
          · exact .inr ⟨⟨_, .inl rfl⟩, rfl⟩) 0x05#8
  have hn : t.fb.normalCompletion = true := by
    rw [FrameBuffer.normalCompletion_iff]; exact ⟨h3, 2, h5, by decide, h4⟩
  have hr : frameAccepted 0x05#8 t.fb = false := by
    rw [frameAccepted_eq_false_iff, h4, h6, h7]; exact ⟨by decide, hne⟩
  have hm : (crcByteOpen 0x05#8).mode = .assembling := rfl
  have hcfg : (crcByteOpen 0x05#8).cfg = 0x05#8 := rfl
  simp only [stepLabel, hm, hb', hcfg, ← h8, hn, if_true, hr, Bool.false_eq_true, if_false]

/-- The latch with CRC enabled at both ends of the header's range, without CRC, and a length already known. -/
theorem witness_HeaderLatchIsExactAndOnce :
    (∃ t, exec (.fbAppendBit 0#8) (assemblingWith 0x05#8 [] 8 0 none) = .next t) ∧
    (∃ t, exec (.fbAppendBit 1#8) (assemblingWith 0x05#8 [(0, 0xFF#8)] 8 0 none) = .next t) ∧
    (∃ t, exec (.fbAppendBit 0#8) (assemblingWith 0x00#8 [(0, 0xFF#8)] 8 0 none) = .next t) ∧
    (∃ t, exec (.fbAppendBit 1#8) (oneBitShort 0x00#8) = .next t) ∧ (oneBitShort 0x00#8).fb.expectedLen = some 3 :=
  ⟨⟨_, rfl⟩, ⟨_, rfl⟩, ⟨_, rfl⟩, ⟨_, rfl⟩, rfl⟩

/-- The first bit after a reset, a bit within a byte, a new byte, and the last bit of the buffer. -/
theorem witness_AppendBitRunsItsFourSteps :
    (∀ s ∈ [State.reset, oneBitShort 0x00#8, assemblingWith 0x05#8 [(0, 0xFF#8)] 8 0 none, runaway 0x00#8,
        assemblingWith 0x00#8 [] 7 2047 (some 1)],
      s.fb.bytes.wf = true ∧ s.fb.bitCursor ≤ 8 ∧ s.fb.byteCursor ≤ 2047 ∧
        (s.fb.bitCursor = 8 → s.fb.byteCursor < 2047)) := by decide

/-- One bit and seven bits so far, each byte value the largest there is. -/
theorem witness_ShiftedInBitDropsNothing :
    ∀ s ∈ [assemblingWith 0x00#8 [(0, 0x01#8)] 1 0 none, assemblingWith 0x00#8 [(2047, 0x7F#8)] 7 2047 (some 1)],
      s.fb.bytes.wf = true ∧ 1 ≤ s.fb.bitCursor ∧ s.fb.bitCursor < 8 ∧ s.fb.byteCursor ≤ 2047 ∧
        (s.fb.bytes.read s.fb.byteCursor).toNat < 2 ^ s.fb.bitCursor := by decide

/-- The shortest and the longest. -/
theorem witness_AppendsFillBytesMsbFirst :
    State.reset.fault = none ∧
    (1 ≤ [true].length ∧ [true].length ≤ 16384) ∧
    (1 ≤ (List.replicate 16384 true).length ∧ (List.replicate 16384 true).length ≤ 16384) := by
  rw [List.length_replicate]; decide

theorem witness_BufferQueriesReturnCursorAndHeaderKnown :
    State.reset.fault = none ∧
    ([] : List Bool).length ≤ 16384 ∧ (List.replicate 16384 true).length ≤ 16384 := by
  rw [List.length_replicate]; decide

theorem witness_NotCompletingReportsZero :
    ¬ ((oneBitShort 0x00#8).fb.bitCursor = 8 ∧
        ∃ n, (oneBitShort 0x00#8).fb.expectedLen = some n ∧ n ≠ 0 ∧ (oneBitShort 0x00#8).fb.byteCursor = n - 1) ∧
    (oneBitShort 0x00#8).fb.byteCursor ≠ 2047 :=
  ⟨fun h => absurd h.1 (by decide), by decide⟩

/-- A normal completion and a forced one. -/
theorem witness_CompletingFlushesAndGoesIdle :
    ((wholeFrame 0x00#8).fb.bitCursor = 8 ∧ (∃ n, (wholeFrame 0x00#8).fb.expectedLen = some n ∧ n ≠ 0 ∧
        (wholeFrame 0x00#8).fb.byteCursor = n - 1) ∧ (wholeFrame 0x00#8).fb.byteCursor ≤ 2047) ∧
    full.fb.byteCursor = 2047 :=
  ⟨⟨rfl, ⟨3, rfl, by decide, rfl⟩, by decide⟩, rfl⟩

/-- A failed check, a passed one, no check at the last byte of the buffer, and a cursor beyond it. -/
theorem witness_FlushTracesChecksAndDelivers :
    (∃ s : State, s.fb.byteCursor ≤ 2047 ∧ crcEnabled s.cfg = true ∧
      crc8Run (s.fb.bytes.span 0 s.fb.byteCursor) ≠ s.fb.bytes.read s.fb.byteCursor) ∧
    (∃ s : State, s.fb.byteCursor ≤ 2047 ∧ crcEnabled s.cfg = true ∧
      crc8Run (s.fb.bytes.span 0 s.fb.byteCursor) = s.fb.bytes.read s.fb.byteCursor) ∧
    (full.fb.byteCursor ≤ 2047 ∧ crcEnabled full.cfg = false) ∧
    2047 < (assemblingWith 0x00#8 [] 0 2048 (some 1)).fb.byteCursor := by
  refine ⟨?_, ⟨{ State.reset with cfg := 0x05#8 }, by decide, by decide, rfl⟩, by decide, by decide⟩
  obtain ⟨b, hb, hne⟩ := exists_wrong_crc_bit
  refine ⟨assemblingWith 0x05#8 (if b = 0#8 then [] else [(1, b)]) 8 1 (some 2), show 1 ≤ 2047 by decide,
    show crcEnabled 0x05#8 = true by decide, ?_⟩
  rcases hb with rfl | rfl <;> exact hne

theorem witness_HandedOverEventsAreNeverTakenBack : ∃ t, exec .faFlush (wholeFrame 0x02#8) = .next t := ⟨_, rfl⟩

theorem witness_UnitEmitsTraceThenDelivery :
    ∃ t, exec (decodeUnit 0x00#8) (oneBitShort 0x02#8) = .next t := ⟨_, rfl⟩

theorem witness_BatchCountIsTheDeliveredLength :
    ∃ t, runBatch [0x00#8, 0x01#8, 0x02#8] (oneBitShort 0x00#8) = .next (t, 2) := ⟨_, rfl⟩

theorem witness_PositionCountsUnitsAndConfigStays :
    ∃ t, runBatch [0x00#8, 0x01#8, 0x02#8] (oneBitShort 0x00#8) = .next (t, 2) := ⟨_, rfl⟩

/-- Every legal word, and illegal ones on both grounds. -/
theorem witness_ResetPutsEveryFieldAtItsResetValue :
    (∀ c ∈ [0x00#8, 0x02#8, 0x05#8, 0x07#8], c = 0x00#8 ∨ c = 0x02#8 ∨ c = 0x05#8 ∨ c = 0x07#8) ∧
    refusalOf (exec (.reset 0x07#8) marked) = none := by decide

theorem witness_IllegalConfigurationIsRefused :
    ∀ c ∈ [0x01#8, 0x04#8, 0x08#8, 0xFF#8], c ≠ 0x00#8 ∧ c ≠ 0x02#8 ∧ c ≠ 0x05#8 ∧ c ≠ 0x07#8 := by decide

theorem witness_BadBitMarksTheState :
    (0x02#8 ≠ 0#8 ∧ 0x02#8 ≠ 1#8) ∧ (0xFF#8 ≠ 0#8 ∧ 0xFF#8 ≠ 1#8) ∧ State.reset.fault = none := by decide

theorem witness_CursorPastTheBufferMarksTheState :
    carriesBit (.acceptS0 0#6) 0#8 ∧ full.fault = none ∧ full.fb.bitCursor = 8 ∧ full.fb.byteCursor = 2047 ∧
    full.mode = .assembling :=
  ⟨.inl ⟨⟨_, .inr rfl⟩, rfl⟩, rfl, rfl, rfl, rfl⟩

/-- The `ACCEPT` commands, an internal operation, a second raise of either mark, and a reset. -/
theorem witness_FaultMarkIsStickyUntilReset :
    ¬ isReset (.fbAppendBit 0xFF#8) ∧
    faultOf (exec (.fbAppendBit 0xFF#8) marked) = some (.raised marked) ∧
    faultOf (exec (.fbAppendBit 1#8) { full with fault := some (.badBit 2#8) }) =
      some (.raised { full with fault := some (.badBit 2#8), fb := ⟨[], 0, 2048, some 1⟩ }) ∧
    legalCfg 0x00#8 = true ∧
    marked.fault = some (.badBit 2#8) ∧ isAccept (.acceptD0 0#6) ∧ ¬ isReset .fbReset ∧
    (∃ t, exec .fbReset marked = .next t) ∧ ∃ t, exec (.reset 0x00#8) marked = .next t :=
  ⟨(fun ⟨_, h⟩ => nomatch h), by decide, by decide, by decide, rfl, .inl ⟨_, .inl rfl⟩, (fun ⟨_, h⟩ => nomatch h), ⟨_, rfl⟩, ⟨_, rfl⟩⟩

/-- A start, a completion, a discard, a reset of an open frame, and the evaluation run on its own. -/
theorem witness_EachFieldHasItsWriters :
    (∃ t, exec (.acceptS1 0#6) State.reset = .next t ∧ t.mode ≠ State.reset.mode ∧ t.fb ≠ State.reset.fb) ∧
    (∃ t, exec (.acceptD0 0#6) (oneBitShort 0x00#8) = .next t ∧ t.mode ≠ (oneBitShort 0x00#8).mode) ∧
    (∃ t, exec (.acceptD1 0#6) State.reset = .next t) ∧
    (∃ t, exec (.reset 0x05#8) (oneBitShort 0x00#8) = .next t ∧ t.mode ≠ (oneBitShort 0x00#8).mode) ∧
    (∃ t, exec .faEvalCompletion (wholeFrame 0x00#8) = .next t ∧ t.mode ≠ (wholeFrame 0x00#8).mode) ∧
    (∃ t, exec (.reset 0x00#8) marked = .next t ∧ t.fault ≠ marked.fault) :=
  ⟨⟨_, rfl, by decide, by decide⟩, ⟨_, rfl, by decide⟩, ⟨_, rfl⟩, ⟨_, rfl, by decide⟩, ⟨_, rfl, by decide⟩,
    ⟨_, rfl, by decide⟩⟩

theorem witness_ResetIsWellFormed : legalCfg 0x07#8 = true ∧ ∀ e ∈ full.sent, e.bounded :=
  ⟨by decide, fun _ h => nomatch h⟩

/-- An open frame that goes on to complete, and a reset. -/
theorem witness_EveryStepKeepsTheInvariant :
    (∃ s t : State, s.Inv ∧ s.mode = .assembling ∧ step s = .next t ∧ t.mode = .idle) ∧
    (∃ s t : State, s.Inv ∧ s.mode = .idle ∧ step s = .next t ∧ t.mode = .assembling) :=
  ⟨⟨(oneBitShort 0x00#8).present [0x00#8], _, { inv_oneBitShort with }, rfl, rfl, rfl⟩,
    ⟨State.reset.present [0x03#8], _, { inv_reset with }, rfl, rfl, rfl⟩⟩

theorem witness_NoUnitStreamFaults : State.reset.Inv ∧ (runaway 0x00#8).Inv := ⟨inv_reset, inv_runaway⟩

theorem witness_AtMostOneCompletionCondition : State.reset.Inv ∧ (oneBitShort 0x00#8).Inv := ⟨inv_reset, inv_oneBitShort⟩

theorem witness_ForcedCompletionOnlyForHeaderZeroWithoutCrc :
    ∃ (u : Byte) (s t : State), s.Inv ∧ s.mode = .assembling ∧ exec (decodeUnit u) s = .next t ∧
      t.fb.forcedCompletion = true := by
  have hc : (appended (crcEnabled 0x00#8) 1#8 (runaway 0x00#8).fb).completes = true := by decide
  have h := accept_assembling_complete (s := runaway 0x00#8) rfl rfl (bit := 1#8) (.inr rfl) false (by decide) hc
  exact ⟨0x01#8, runaway 0x00#8, _, inv_runaway, rfl, h, rfl⟩

/-- Header 0 with CRC enabled, and the first seven bits of the CRC byte `c`. -/
def crcByteOf (c : Byte) : State := assemblingWith 0x05#8 (Memory.write [] 1 (c >>> 1)) 7 1 (some 2)

theorem inv_crcByteOf (c : Byte) : (crcByteOf c).Inv where
  cfg_legal := show legalCfg 0x05#8 = true by decide
  unmarked := rfl
  buffer := by
    refine ⟨show 7 ≤ 8 by decide, show 1 ≤ 2047 by decide, Memory.wf_write rfl _ _, fun i h => ?_, fun n h => ?_⟩
    · have h' : 1 < i := h
      exact Memory.read_write_other rfl (by omega) _
    · cases h
      rw [show (crcByteOf c).fb.bytes.read 0 = 0#8 from Memory.read_write_other rfl (by decide) _]
      show 2 = (0#8).toNat + (if crcEnabled 0x05#8 then 1 else 0) + 1
      decide
  open_frame := fun _ => by
    have hr : (crcByteOf c).fb.bytes.read 1 = c >>> 1 := Memory.read_write_same rfl _ _
    refine ⟨show 1 ≤ 7 by decide, ⟨fun _ => show 1 ≤ 1 by decide, fun _ => rfl⟩, ?_, fun n h _ => ?_, rfl, rfl⟩
    · rw [show (crcByteOf c).fb.byteCursor = 1 from rfl, hr]
      revert c; decide
    · cases h; exact Nat.le_refl 1
  events_sent := ⟨[], rfl⟩
  events_bounded := fun _ h => nomatch h

/-- Its last unit completes it, with the CRC byte `c` and the header 0. -/
theorem crcByteOf_step (c : Byte) :
    ∃ t, exec (decodeUnit (c &&& 0x01#8)) (crcByteOf c) = .next t ∧ t.fb.normalCompletion = true ∧ t.fb.byteCursor = 1 ∧
      t.fb.bytes.span 0 1 = [0#8] ∧ t.fb.bytes.read 1 = c := by
  have hb := bitByte_is_bit (unitV (c &&& 0x01#8))
  have hwf : (crcByteOf c).fb.bytes.wf = true := Memory.wf_write rfl _ _
  have hr : (crcByteOf c).fb.bytes.read 1 = c >>> 1 := Memory.read_write_same rfl _ _
  have h0 : (crcByteOf c).fb.bytes.read 0 = 0#8 := Memory.read_write_other rfl (by decide) _
  have hbyte : (crcByteOf c).fb.byteCursor = 1 := rfl
  have hbit : (crcByteOf c).fb.bitCursor = 7 := rfl
  have hadv : advanceByte (crcByteOf c).fb = (crcByteOf c).fb := rfl
  have hn : (appended true (bitByte (unitV (c &&& 0x01#8))) (crcByteOf c).fb).normalCompletion = true := by
    rw [FrameBuffer.normalCompletion_iff]
    exact ⟨rfl, 2, rfl, by decide, rfl⟩
  have hc : (appended true (bitByte (unitV (c &&& 0x01#8))) (crcByteOf c).fb).completes = true := by
    rw [FrameBuffer.completes, hn]; rfl
  refine ⟨_, (exec_decodeUnit _ _).trans
    (accept_assembling_complete rfl rfl hb _ (show 1 ≤ 2047 by decide) hc), hn, rfl, ?_, ?_⟩
  · show [(appended true _ (crcByteOf c).fb).bytes.read 0] = _
    rw [appended_read hwf, hadv, hbyte, if_neg (show ¬ 0 = 1 by decide), h0]
  · show (appended true _ (crcByteOf c).fb).bytes.read 1 = _
    rw [appended_read hwf, hadv, hbyte, if_pos rfl, hbit, if_neg (show ¬ 7 = 0 by decide), hr]
    clear hb hwf hr h0 hn hc hadv hbyte hbit
    revert c; decide

/-- A frame with no check, one whose check passes, and one whose check fails, whatever the table holds. -/
theorem witness_NormalCompletionDeliversTheDeclaredPayload :
    (∃ t, (oneBitShort 0x00#8).Inv ∧ exec (decodeUnit 0x00#8) (oneBitShort 0x00#8) = .next t ∧
      t.fb.normalCompletion = true ∧ crcEnabled (oneBitShort 0x00#8).cfg = false) ∧
    (∃ (u : Byte) (s t : State), s.Inv ∧ s.mode = .assembling ∧ exec (decodeUnit u) s = .next t ∧
      t.fb.normalCompletion = true ∧ crcEnabled s.cfg = true ∧
      crc8Run (t.fb.bytes.span 0 t.fb.byteCursor) = t.fb.bytes.read t.fb.byteCursor) ∧
    (∃ (u : Byte) (s t : State), s.Inv ∧ s.mode = .assembling ∧ exec (decodeUnit u) s = .next t ∧
      t.fb.normalCompletion = true ∧ crcEnabled s.cfg = true ∧
      crc8Run (t.fb.bytes.span 0 t.fb.byteCursor) ≠ t.fb.bytes.read t.fb.byteCursor) := by
  refine ⟨⟨_, inv_oneBitShort, rfl, rfl, rfl⟩, ?_, ?_⟩
  · obtain ⟨t, h, hn, hl, hs, hr⟩ := crcByteOf_step (crc8Run [0#8])
    exact ⟨_, _, t, inv_crcByteOf _, rfl, h, hn, show crcEnabled 0x05#8 = true by decide, by rw [hl, hs, hr]⟩
  · obtain ⟨b, -, hne⟩ := exists_wrong_crc_bit
    obtain ⟨t, h, hn, hl, hs, hr⟩ := crcByteOf_step b
    exact ⟨_, _, t, inv_crcByteOf _, rfl, h, hn, show crcEnabled 0x05#8 = true by decide, by rw [hl, hs, hr]; exact hne⟩

/-- With CRC enabled and without. -/
theorem witness_ProducedCountIsBounded :
    (∃ t, (oneBitShort 0x00#8).Inv ∧ exec (decodeUnit 0x00#8) (oneBitShort 0x00#8) = .next t) ∧
    (∃ t, (crcByteOpen 0x05#8).Inv ∧ exec (decodeUnit 0x01#8) (crcByteOpen 0x05#8) = .next t ∧
      crcEnabled (crcByteOpen 0x05#8).cfg = true) := by
  refine ⟨⟨_, inv_oneBitShort, rfl⟩, ?_⟩
  obtain ⟨t, h1, -⟩ := crcByteOpen_step (i := .acceptD1 0#6) (.inr ⟨⟨_, .inl rfl⟩, rfl⟩) 0x05#8
  exact ⟨t, inv_crcByteOpen, h1, by decide⟩

/-- With the flag set and with it clear. -/
theorem witness_VerboseChangesOnlyTheTrace :
    (∃ t, exec (decodeUnit 0x00#8) (oneBitShort 0x02#8) = .next t ∧ verbose (oneBitShort 0x02#8).cfg = true) ∧
    (∃ t, exec (decodeUnit 0x00#8) (oneBitShort 0x00#8) = .next t ∧ verbose (oneBitShort 0x00#8).cfg = false) :=
  ⟨⟨_, rfl, rfl⟩, ⟨_, rfl, rfl⟩⟩

theorem witness_UpperConfigurationBitsAreNeverRead :
    ¬ isReset (.acceptD0 0#6) ∧ (0xFC#8 : Byte).getLsbD 0 = State.reset.cfg.getLsbD 0 ∧
    (0xFC#8 : Byte).getLsbD 1 = State.reset.cfg.getLsbD 1 :=
  ⟨(fun ⟨_, h⟩ => nomatch h), rfl, rfl⟩

/-- A run that stays idle, and one that opens a frame. -/
theorem witness_IdleBufferCannotBeObserved :
    (∃ t, State.reset.mode = .idle ∧ runBatch [0x01#8] State.reset = .next (t, 0) ∧ t.mode = .idle) ∧
    (∃ t, State.reset.mode = .idle ∧ runBatch [0x01#8, 0x03#8] State.reset = .next (t, 0) ∧ t.mode = .assembling) :=
  ⟨⟨_, rfl, rfl, rfl⟩, ⟨_, rfl, rfl, rfl⟩⟩

/-- The empty payload and the longest: the units of the frame itself. -/
theorem witness_FrameWithRightCrcIsDelivered :
    ∀ payload ∈ [[], List.replicate 255 0xA5#8], payload.length ≤ 255 ∧
      (idleWith 0x05#8).fault = none ∧ (idleWith 0x05#8).mode = .idle ∧ crcEnabled (idleWith 0x05#8).cfg = true ∧
      let header : Byte := BitVec.ofNat 8 payload.length
      let frame := header :: payload ++ [crc8Run (header :: payload)]
      ∃ us : List Byte, us.map unitV = frame.flatMap bitsMsbFirst ∧ (us.head?.map unitS) = some true := by
  intro payload hp
  refine ⟨?_, rfl, rfl, rfl, ?_⟩
  · simp only [List.mem_cons, List.not_mem_nil, or_false] at hp
    rcases hp with rfl | rfl
    · decide
    · rw [List.length_replicate]
  · have hv : ∀ b, unitV (syncUnit b) = b := by decide
    refine ⟨_, (List.map_map (l := _) (g := unitV) (f := syncUnit)).trans (by
      rw [show unitV ∘ syncUnit = id from funext hv, List.map_id]), ?_⟩
    have hs : ∀ b, unitS (syncUnit b) = true := by decide
    simp [bitsMsbFirst, hs, List.range_succ_eq_map]

theorem witness_FrameWithWrongCrcIsRejected :
    ([0xFF#8] : List Byte).length ≤ 255 ∧ (idleWith 0x05#8).fault = none ∧ (idleWith 0x05#8).mode = .idle ∧
    crcEnabled (idleWith 0x05#8).cfg = true ∧ ∃ crc : Byte, crc ≠ crc8Run [0x01#8, 0xFF#8] :=
  ⟨by decide, rfl, rfl, rfl, crc8Run [0x01#8, 0xFF#8] ^^^ 0x01#8, by
    have h : ∀ k : Byte, k ^^^ 0x01#8 ≠ k := by decide
    exact h _⟩

/-- The shortest payload and the longest. -/
theorem witness_BackToBackFramesWithoutCrcAreDelivered :
    (1 ≤ [0x80#8].length ∧ [0x80#8].length ≤ 255) ∧
    (1 ≤ (List.replicate 255 0x01#8).length ∧ (List.replicate 255 0x01#8).length ≤ 255) ∧
    State.reset.fault = none ∧ State.reset.mode = .idle ∧ crcEnabled State.reset.cfg = false := by
  rw [List.length_replicate]; decide

theorem witness_HeaderZeroWithoutCrcRunsToTheLimit :
    (List.replicate 16368 0xFF#8).length = 16368 ∧ State.reset.fault = none ∧ State.reset.mode = .idle ∧
    crcEnabled State.reset.cfg = false :=
  ⟨List.length_replicate, rfl, rfl, rfl⟩

/-- A next state from an unmarked state, a raise by either fault, a step, a run, a batch, a sequence, and the two kinds of
marked state that stop. -/
theorem witness_MarkedStateIsNeverFinal :
    (∃ t, State.reset.fault = none ∧ exec (.acceptS0 0#6) State.reset = .next t) ∧
    (∃ t, exec (.fbAppendBit 2#8) State.reset = .fault (.raised t)) ∧
    (∃ t, exec (.acceptD0 0#6) full = .fault (.raised t)) ∧
    (∃ t, step (State.reset.present [0x03#8]) = .next t) ∧
    (∃ t, Host.Core.run Sys2Proof.core 2 (State.reset.present [0x03#8, 0x00#8]) = .next t) ∧
    (∃ t, runBatch [] State.reset = .next (t, 0)) ∧ (∃ t, runInstrs [.fbReset] State.reset = .next t) ∧
    (∃ t, step { marked with inputs := [.reset 0x00#8] } = .next t) ∧
    (marked.fault = some (.badBit 2#8) ∧ marked.inputs = []) ∧
    (marked.present [0x00#8]).inputs = [.unit 0x00#8] :=
  ⟨⟨_, rfl, rfl⟩, ⟨_, rfl⟩, ⟨_, rfl⟩, ⟨_, rfl⟩, ⟨_, rfl⟩, ⟨_, rfl⟩, ⟨_, rfl⟩, ⟨_, rfl⟩, ⟨rfl, rfl⟩, rfl⟩

/-- A discarded unit, a start, an open and a completing unit, and a reset. -/
theorem witness_EveryStepFollowsTheWriteMap :
    (∃ t, step (State.reset.present [0x00#8]) = .next t ∧ State.reset.mode = .idle) ∧
    (∃ t, step (State.reset.present [0x03#8]) = .next t ∧ unitS 0x03#8 = true) ∧
    (∃ t, step ((assemblingWith 0x00#8 [] 1 1 (some 1)).present [0x01#8]) = .next t ∧ t.mode = .assembling) ∧
    (∃ t, step ((oneBitShort 0x00#8).present [0x00#8]) = .next t ∧ t.mode = .idle) ∧
    (∃ t, step { oneBitShort 0x00#8 with inputs := [.reset 0x05#8] } = .next t ∧ t.mode = .idle) :=
  ⟨⟨_, rfl, rfl⟩, ⟨_, rfl, rfl⟩, ⟨_, rfl, rfl⟩, ⟨_, rfl, rfl⟩, ⟨_, rfl, rfl⟩⟩

end Sys2Proof.Tests
end

/-! ### The step -/

namespace Sys2Proof

open Machine

/-- What the decoder reads from a stream of one unit is the command the unit selects (30_encoding.md R71, R81). -/
theorem decode_singleton_iff {u : Byte} {i : Instr} : decode [u] = .ok (i, []) ↔ decodeUnit u = i := by
  simp [decode]

/-- Settles O6, from what a step does with each front of the queue, and with an empty one in each kind of state. -/
theorem stepRunsTheDecodedUnit : Obligations.StepRunsTheDecodedUnit := by
  refine ⟨fun s u rest i hq hi => ?_, fun _ _ _ => step_of_reset, fun _ => step_of_no_input,
    fun _ _ => step_of_no_input_marked⟩
  obtain rfl : decodeUnit u = i := decode_singleton_iff.mp hi
  exact step_of_unit hq

end Sys2Proof

/-! ### What the steps of the machine change -/

namespace Sys2Proof.Machine

/-- What an `ACCEPT` step that goes on does to every field but the mode, the buffer and the outputs (10_state.md R38). -/
theorem accept_frame {bit : Byte} (hb : bit = 0#8 ∨ bit = 1#8) {sync : Bool} {s t : State}
    (h : accept bit sync s = .next t) :
    t.cfg = s.cfg ∧ t.pos = s.pos + 1 ∧ t.fault = s.fault ∧ t.inputs = s.inputs := by
  obtain ⟨-, ⟨-, -, rfl⟩ | ⟨-, -, rfl⟩ | ⟨-, -, rfl⟩ | ⟨-, -, rfl⟩⟩ := accept_eq_next hb h <;>
    exact ⟨rfl, rfl, rfl, rfl⟩

/-- What a unit does in `Idle`: without sync it leaves the buffer, with it a frame starts (42_assembler.md R151). -/
theorem accept_idle_eq_next {bit : Byte} (hb : bit = 0#8 ∨ bit = 1#8) {sync : Bool} {s t : State}
    (h : accept bit sync s = .next t) (hm : s.mode = .idle) :
    t.mode = (if sync then .assembling else .idle) ∧ (sync = false → t.fb = s.fb) := by
  obtain ⟨-, ⟨-, rfl, rfl⟩ | ⟨-, rfl, rfl⟩ | ⟨ha, -⟩ | ⟨ha, -⟩⟩ := accept_eq_next hb h
  · exact ⟨hm, fun _ => rfl⟩
  · exact ⟨rfl, fun h => nomatch h⟩
  all_goals exact nomatch hm.symm.trans ha

/-- What a unit does in `Assembling`: its bit is appended, and the mode tells whether the frame completes
(42_assembler.md R151, R163, R164). -/
theorem accept_assembling_eq_next {bit : Byte} (hb : bit = 0#8 ∨ bit = 1#8) {sync : Bool} {s t : State}
    (h : accept bit sync s = .next t) (hm : s.mode = .assembling) :
    t.fb = appended (crcEnabled s.cfg) bit s.fb ∧ t.mode = (if t.fb.completes then .idle else .assembling) := by
  obtain ⟨-, ⟨hi, -⟩ | ⟨hi, -⟩ | ⟨-, hc, rfl⟩ | ⟨-, hc, rfl⟩⟩ := accept_eq_next hb h
  · exact nomatch hm.symm.trans hi
  · exact nomatch hm.symm.trans hi
  · exact ⟨rfl, by simp [hc, hm]⟩
  · exact ⟨rfl, by simp [hc]⟩

/-- A flush that goes on changes the outputs only (42_assembler.md R165). -/
theorem flush_eq_next {s t : State} (h : flush s = .next t) :
    t = { s with returned := .count (flushCount s.cfg s.fb), events := s.events ++ flushEvents s.cfg s.fb,
                 sent := s.sent ++ flushEvents s.cfg s.fb } := by
  by_cases hin : s.fb.byteCursor < 2048
  · rw [flush_of_inside hin] at h; cases h; rfl
  · rw [flush_of_outside (by omega)] at h; exact nomatch h

/-- An evaluation that goes on changes the outputs, and the mode where the frame completes (42_assembler.md R159). -/
theorem evalCompletion_eq_next {s t : State} (h : evalCompletion s = .next t) :
    t = { s with returned := .count 0 } ∨
    t = { s with mode := .idle, returned := .count (flushCount s.cfg s.fb),
                 events := s.events ++ flushEvents s.cfg s.fb, sent := s.sent ++ flushEvents s.cfg s.fb } := by
  cases hc : s.fb.completes with
  | false => rw [evalCompletion_of_open hc] at h; cases h; exact .inl rfl
  | true =>
    by_cases hin : s.fb.byteCursor < 2048
    · rw [evalCompletion_of_complete hc hin] at h; cases h; exact .inr rfl
    · rw [evalCompletion_of_outside hc (by omega)] at h; exact nomatch h

/-- A reset that goes on had a legal configuration, and put every field of `S` at its reset value (30_encoding.md R76). -/
theorem exec_reset_eq_next {cfg : Byte} {s t : State} (h : exec (.reset cfg) s = .next t) :
    legalCfg cfg = true ∧ t = applyReset cfg s.begin := by
  simp only [exec, execReset] at h
  split at h
  case isTrue hl => cases h; exact ⟨hl, rfl⟩
  case isFalse => exact nomatch h

/-- A step that goes on took a unit or a reset off the queue and ran it (70_reset_and_hazards.md R250). -/
theorem step_eq_next {s t : State} (h : step s = .next t) :
    (∃ u rest, s.inputs = .unit u :: rest ∧
      accept (bitByte (unitV u)) (unitS u) { s with inputs := rest } = .next t) ∨
    (∃ cfg rest, s.inputs = .reset cfg :: rest ∧ legalCfg cfg = true ∧
      t = applyReset cfg (State.begin { s with inputs := rest })) := by
  match hq : s.inputs with
  | [] =>
    cases hf : s.fault with
    | none => rw [step_of_no_input hq hf] at h; exact nomatch h
    | some m => rw [step_of_no_input_marked hq hf] at h; exact nomatch h
  | .unit u :: rest =>
    rw [step_of_unit hq, exec_decodeUnit] at h
    exact .inl ⟨u, rest, rfl, h⟩
  | .reset cfg :: rest =>
    rw [step_of_reset hq] at h
    exact .inr ⟨cfg, rest, rfl, exec_reset_eq_next h⟩

end Sys2Proof.Machine

/-! ### The invariant -/

namespace Sys2Proof.Machine

theorem FrameBuffer.cleared_inv (crc : Bool) : FrameBuffer.cleared.Inv crc :=
  ⟨Nat.zero_le 8, Nat.zero_le 2047, rfl, fun _ _ => rfl, fun _ h => nomatch h⟩

/-- An append keeps the buffer part of the invariant: it writes one byte, and that is not the header once the length is
known (41_framebuffer.md R124, R126). -/
theorem appended_inv {crc : Bool} {fb : FrameBuffer} (h : fb.Inv crc)
    (hroom : (advanceByte fb).byteCursor ≤ 2047) (hknown : fb.expectedLen.isSome = true → 1 ≤ fb.byteCursor)
    (bit : Byte) : (appended crc bit fb).Inv crc := by
  obtain ⟨hbit, -, hwf, habove, hlen⟩ := h
  have hcursor := appended_byteCursor crc bit fb
  have hread : ∀ i, i ≠ (appended crc bit fb).byteCursor →
      (appended crc bit fb).bytes.read i = fb.bytes.read i := fun i hi => by
    rw [appended_read_before hwf, if_neg hi]
  refine ⟨?_, ?_, appended_wf hwf crc bit, fun i hi => ?_, fun n hn => ?_⟩
  · rw [appended_bitCursor]; split <;> omega
  · rwa [appended_byteCursor_eq_advance]
  · rw [hread i (by omega)]
    refine habove i ?_
    split at hcursor <;> omega
  · rw [appended_expectedLen_before] at hn
    split at hn
    case isTrue hlatch =>
      rw [hread 0 (by split at hcursor <;> omega)]
      exact (Option.some.inj hn).symm
    case isFalse =>
      have := hknown (by rw [hn]; rfl)
      rw [hread 0 (by split at hcursor <;> omega)]
      exact hlen n hn

/-- The frame a sync unit starts is open (42_assembler.md R154, R155). -/
theorem FrameBuffer.open_of_started (crc : Bool) {bit : Byte} (hb : bit = 0#8 ∨ bit = 1#8) :
    (appended crc bit FrameBuffer.cleared).Open := by
  rw [appended_cleared crc hb]
  rcases hb with rfl | rfl <;>
    exact ⟨Nat.le_refl 1, by decide, by decide, fun _ h => (nomatch h), by decide, by decide⟩

/-- An open frame has room for another bit (41_framebuffer.md R128). -/
theorem FrameBuffer.Open.room {crc : Bool} {fb : FrameBuffer} (ho : fb.Open) (h : fb.Inv crc) :
    (advanceByte fb).byteCursor ≤ 2047 := by
  have hno : ¬ fb.byteCursor = 2047 := by
    rw [← FrameBuffer.forcedCompletion_iff, ho.no_forced]; decide
  exact advanceByte_room h.byte_range fun _ => by have := h.byte_range; omega

/-- The byte being assembled holds only the bits it got, one more after each append (41_framebuffer.md R126). -/
theorem FrameBuffer.Open.appended_partial_byte {crc : Bool} {fb : FrameBuffer} (ho : fb.Open) (h : fb.Inv crc) {bit : Byte}
    (hb : bit = 0#8 ∨ bit = 1#8) :
    ((appended crc bit fb).bytes.read (appended crc bit fb).byteCursor).toNat <
      2 ^ (appended crc bit fb).bitCursor := by
  have hbit : bit.toNat < 2 := by rcases hb with rfl | rfl <;> decide
  have hsome := ho.some_bit
  have hle := h.bit_range
  rw [appended_read_before h.canonical, if_pos rfl, appended_byteCursor, appended_bitCursor]
  by_cases h8 : fb.bitCursor = 8
  · simpa [h8] using hbit
  · have hk : fb.bitCursor < 8 := by omega
    have hpart := ho.partial_byte
    rw [if_neg h8, if_neg h8, if_neg (by omega), shiftIn_toNat hk hpart hb, Nat.pow_succ]
    omega

/-- The length is known from the second byte on (10_state.md R37 item 2): the header latch runs on moving to it. -/
theorem FrameBuffer.Open.appended_known_iff {fb : FrameBuffer} (ho : fb.Open) (crc : Bool) (bit : Byte) :
    (appended crc bit fb).expectedLen.isSome = true ↔ 1 ≤ (appended crc bit fb).byteCursor := by
  have hknown := ho.known_iff
  have hsome := ho.some_bit
  rw [appended_expectedLen_before, appended_byteCursor]
  rcases Nat.eq_zero_or_pos fb.byteCursor with h0 | hpos
  · have hnone : fb.expectedLen = none := by simpa [h0] using hknown
    by_cases h8 : fb.bitCursor = 8 <;> simp [h0, h8, hnone]
  · obtain ⟨n, hn⟩ := Option.isSome_iff_exists.mp (hknown.mpr hpos)
    simp only [hn, reduceCtorEq, false_and, if_false, Option.isSome_some, true_iff]
    split <;> omega

/-- The cursor does not pass the last byte of the declared length: an open frame that moves on from a byte has not moved on
from that one, which would have completed it (42_assembler.md R160). -/
theorem FrameBuffer.Open.appended_within {crc : Bool} {fb : FrameBuffer} (ho : fb.Open) (h : fb.Inv crc) (bit : Byte)
    {n : Nat} (hn : (appended crc bit fb).expectedLen = some n) (hn1 : n ≠ 1) :
    (appended crc bit fb).byteCursor ≤ n - 1 := by
  have hsome := ho.some_bit
  rw [appended_expectedLen_before] at hn
  rw [appended_byteCursor]
  split at hn
  case isTrue hlatch =>
    have := Option.some.inj hn
    split <;> omega
  case isFalse =>
    have hwithin := ho.within n hn hn1
    have hpos : n ≠ 0 := by have := h.length_declared n hn; omega
    have hmore : fb.bitCursor = 8 → fb.byteCursor ≠ n - 1 := fun h8 hlast => by
      have := (FrameBuffer.normalCompletion_iff fb).mpr ⟨h8, n, hn, hpos, hlast⟩
      rw [ho.no_normal] at this
      exact nomatch this
    split <;> omega

/-- An append that completes nothing leaves the frame open (10_state.md R37 items 2, 3 and 6). -/
theorem appended_open {crc : Bool} {fb : FrameBuffer} (ho : fb.Open) (h : fb.Inv crc) {bit : Byte}
    (hb : bit = 0#8 ∨ bit = 1#8) (hc : (appended crc bit fb).completes = false) :
    (appended crc bit fb).Open := by
  obtain ⟨hnormal, hforced⟩ := Bool.or_eq_false_iff.mp hc
  refine ⟨?_, ho.appended_known_iff crc bit, ho.appended_partial_byte h hb, fun _ => ho.appended_within h bit,
    hnormal, hforced⟩
  rw [appended_bitCursor]; omega

/-- A flush inside the buffer emits only events within the bounds of 30_encoding.md R80. -/
theorem flushEvents_bounded (cfg : Byte) {fb : FrameBuffer} (h : fb.byteCursor ≤ 2047) :
    ∀ e ∈ flushEvents cfg fb, e.bounded := by
  intro e he
  simp only [flushEvents, List.mem_append, List.mem_ite_nil_right, List.mem_singleton] at he
  rcases he with ⟨-, rfl⟩ | ⟨-, rfl⟩
  · simp only [Event.bounded, Memory.span_length]
    omega
  · simp only [Event.bounded, framePayload_length, payloadEnd_eq]
    split <;> omega

/-- The queue is no part of the invariant. -/
theorem State.Inv.with_inputs {s : State} (h : s.Inv) (q : List Stimulus) : State.Inv { s with inputs := q } :=
  { h with }

/-- Every `ACCEPT` step keeps the invariant. -/
theorem accept_inv {s t : State} (h : s.Inv) {bit : Byte} (hb : bit = 0#8 ∨ bit = 1#8) {sync : Bool}
    (hs : accept bit sync s = .next t) : t.Inv := by
  obtain ⟨hcfg, hunmarked, hbuffer, hopen, -, hbounded⟩ := h
  have happended : s.mode = .assembling →
      (appended (crcEnabled s.cfg) bit s.fb).Inv (crcEnabled s.cfg) := fun hm =>
    appended_inv hbuffer ((hopen hm).room hbuffer) (hopen hm).known_iff.mp bit
  obtain ⟨-, ⟨hm, -, rfl⟩ | ⟨-, -, rfl⟩ | ⟨hm, hc, rfl⟩ | ⟨hm, -, rfl⟩⟩ := accept_eq_next hb hs
  · exact ⟨hcfg, hunmarked, hbuffer, hopen, ⟨s.sent, by simp⟩, hbounded⟩
  · refine ⟨hcfg, hunmarked, ?_, fun _ => FrameBuffer.open_of_started _ hb, ⟨s.sent, by simp⟩, hbounded⟩
    exact appended_inv (FrameBuffer.cleared_inv _) (by decide) (fun h => nomatch h) bit
  · exact ⟨hcfg, hunmarked, happended hm, fun _ => appended_open (hopen hm) hbuffer hb hc, ⟨s.sent, by simp⟩, hbounded⟩
  · refine ⟨hcfg, hunmarked, happended hm, (fun h => nomatch h), ⟨s.sent, rfl⟩, fun e he => ?_⟩
    rcases List.mem_append.mp he with he | he
    · exact hbounded e he
    · exact flushEvents_bounded _ (happended hm).byte_range e he

/-- `RESET` with a legal configuration gives a well-formed state, whatever the state before but for what it handed out. -/
theorem applyReset_inv {cfg : Byte} {s : State} (hcfg : legalCfg cfg = true) (hbounded : ∀ e ∈ s.sent, e.bounded) :
    (applyReset cfg s.begin).Inv :=
  ⟨hcfg, rfl, FrameBuffer.cleared_inv _, fun h => (nomatch h), ⟨s.sent, by simp⟩, hbounded⟩

end Sys2Proof.Machine

namespace Sys2Proof

open Machine

/-- Settles O38, from what each of the two kinds of step keeps. -/
theorem everyStepKeepsTheInvariant : Obligations.EveryStepKeepsTheInvariant := by
  intro s t hinv hstep
  obtain ⟨u, rest, -, hs⟩ | ⟨cfg, rest, -, hcfg, rfl⟩ := step_eq_next hstep
  · exact accept_inv (hinv.with_inputs rest) (bitByte_is_bit _) hs
  · exact applyReset_inv hcfg hinv.events_bounded

/-- Settles O37: the constant reset state is what `RESET` with its own configuration makes of it. -/
theorem resetIsWellFormed : Obligations.ResetIsWellFormed := by
  refine ⟨?_, fun cfg s hcfg hbounded => ⟨_, if_pos hcfg, applyReset_inv hcfg hbounded⟩⟩
  exact applyReset_inv (cfg := Config.resetCfg) (s := State.reset) (by decide) (fun _ h => nomatch h)

/-- Settles O32, by evaluation: no byte of the constant state is listed. -/
theorem resetStateHoldsTheResetValues : Obligations.ResetStateHoldsTheResetValues :=
  ⟨rfl, fun _ => rfl, rfl, rfl, rfl, rfl, rfl, rfl, by decide⟩

end Sys2Proof

/-! ### The write map -/

namespace Sys2Proof.Machine

/-- The four input-unit commands run `ACCEPT` on one data bit, with the sync flag where the command carries it
(42_assembler.md R152 to R155). -/
theorem exec_of_isAccept {i : Instr} (hi : isAccept i) :
    ∃ bit sync, (bit = 0#8 ∨ bit = 1#8) ∧ (sync = true → carriesSync i) ∧ (carriesNoSync i → sync = false) ∧
      ∀ s, exec i s = accept bit sync s := by
  obtain ⟨r, rfl | rfl⟩ | ⟨r, rfl | rfl⟩ := hi
  · exact ⟨0#8, false, .inl rfl, (fun h => nomatch h), fun _ => rfl, fun _ => rfl⟩
  · exact ⟨1#8, false, .inr rfl, (fun h => nomatch h), fun _ => rfl, fun _ => rfl⟩
  · exact ⟨0#8, true, .inl rfl, fun _ => ⟨r, .inl rfl⟩, (fun ⟨_, h⟩ => by simp at h), fun _ => rfl⟩
  · exact ⟨1#8, true, .inr rfl, fun _ => ⟨r, .inr rfl⟩, (fun ⟨_, h⟩ => by simp at h), fun _ => rfl⟩

/-- An internal operation leaves the configuration, the position, the mark and the queue; only the evaluation changes the
mode, and only the reset of the buffer and the append change the buffer (10_state.md R38; log entry 13). -/
theorem exec_internal_frame {i : Instr} (ha : ¬ isAccept i) (hr : ¬ isReset i) {s t : State} (h : exec i s = .next t) :
    (t.cfg = s.cfg ∧ t.pos = s.pos ∧ t.fault = s.fault ∧ t.inputs = s.inputs) ∧
    (t.mode = s.mode ∨ i = .faEvalCompletion ∧ t.mode = .idle) ∧
    (t.fb = s.fb ∨ i = .fbReset ∨ ∃ b, i = .fbAppendBit b) := by
  cases i with
  | acceptD0 r => exact absurd (.inl ⟨r, .inl rfl⟩) ha
  | acceptD1 r => exact absurd (.inl ⟨r, .inr rfl⟩) ha
  | acceptS0 r => exact absurd (.inr ⟨r, .inl rfl⟩) ha
  | acceptS1 r => exact absurd (.inr ⟨r, .inr rfl⟩) ha
  | reset cfg => exact absurd ⟨cfg, rfl⟩ hr
  | fbReset => cases h; exact ⟨⟨rfl, rfl, rfl, rfl⟩, .inl rfl, .inr (.inl rfl)⟩
  | fbAppendBit bit =>
    obtain ⟨-, -, rfl⟩ := appendBit_eq_next h
    exact ⟨⟨rfl, rfl, rfl, rfl⟩, .inl rfl, .inr (.inr ⟨bit, rfl⟩)⟩
  | faEvalCompletion =>
    obtain rfl | rfl := evalCompletion_eq_next h
    · exact ⟨⟨rfl, rfl, rfl, rfl⟩, .inl rfl, .inl rfl⟩
    · exact ⟨⟨rfl, rfl, rfl, rfl⟩, .inr ⟨rfl, rfl⟩, .inl rfl⟩
  | faFlush =>
    obtain rfl := flush_eq_next h
    exact ⟨⟨rfl, rfl, rfl, rfl⟩, .inl rfl, .inl rfl⟩
  | crc8Update | crc8Run | fbCurrentLength | fbIsHeaderKnown | sinkDeliver | traceEmit =>
    cases h; exact ⟨⟨rfl, rfl, rfl, rfl⟩, .inl rfl, .inl rfl⟩

/-- Which command changes the mode, and to what (10_state.md R21). -/
theorem accept_mode_change {bit : Byte} (hb : bit = 0#8 ∨ bit = 1#8) {sync : Bool} {s t : State}
    (h : accept bit sync s = .next t) (hne : t.mode ≠ s.mode) :
    sync = true ∧ t.mode = .assembling ∨ t.mode = .idle ∧ t.fb.completes = true := by
  cases hm : s.mode with
  | idle =>
    obtain ⟨hmode, -⟩ := accept_idle_eq_next hb h hm
    cases sync with
    | false => exact absurd (hmode.trans hm.symm) hne
    | true => exact .inl ⟨rfl, hmode⟩
  | assembling =>
    obtain ⟨-, hmode⟩ := accept_assembling_eq_next hb h hm
    split at hmode
    case isTrue hc => exact .inr ⟨hmode, hc⟩
    case isFalse => exact absurd (hmode.trans hm.symm) hne

/-- A batch runs as many `ACCEPT` steps as it has units, each with the frame of one. -/
theorem runBatch_frame {us : List Byte} {s t : State} {n : Nat} (h : runBatch us s = .next (t, n)) :
    t.pos = s.pos + us.length ∧ t.cfg = s.cfg ∧ t.inputs = s.inputs := by
  induction us generalizing s n with
  | nil =>
    obtain ⟨rfl, -, -⟩ := runBatch_nil_eq_next h
    exact ⟨rfl, rfl, rfl⟩
  | cons u us ih =>
    obtain ⟨s₁, k, hstep, hrest, -⟩ := runBatch_cons_eq_next h
    rw [exec_decodeUnit] at hstep
    obtain ⟨hcfg, hpos, -, hinputs⟩ := accept_frame (bitByte_is_bit _) hstep
    obtain ⟨hpos', hcfg', hinputs'⟩ := ih hrest
    refine ⟨?_, hcfg'.trans hcfg, hinputs'.trans hinputs⟩
    rw [hpos', hpos, List.length_cons]; omega

end Sys2Proof.Machine

namespace Sys2Proof

open Machine

/-- Settles O29, by induction over the units of the batch. -/
theorem positionCountsUnitsAndConfigStays : Obligations.PositionCountsUnitsAndConfigStays :=
  fun _ _ _ _ => runBatch_frame

/-- Settles O36, for each of the three kinds of operation: a unit's command, `RESET`, an internal operation. -/
theorem eachFieldHasItsWriters : Obligations.EachFieldHasItsWriters := by
  intro i s t h
  by_cases ha : isAccept i
  · obtain ⟨bit, sync, hb, hsync, hnosync, hexec⟩ := exec_of_isAccept ha
    rw [hexec] at h
    obtain ⟨hcfg, hpos, hfault, hinputs⟩ := accept_frame hb h
    refine ⟨fun _ => hcfg, fun _ hn => absurd ha hn, fun _ => hpos, fun hne => ?_, fun _ => .inr (.inl ha),
      fun _ hm hd => (accept_idle_eq_next hb h hm).2 (hnosync hd), fun hne => absurd hfault hne, hinputs⟩
    obtain ⟨hs, hmode⟩ | ⟨hmode, hc⟩ := accept_mode_change hb h hne
    · exact .inr (.inr (.inl ⟨hsync hs, hmode⟩))
    · exact .inr (.inr (.inr ⟨ha, hmode, Bool.or_eq_true_iff.mp hc⟩))
  · by_cases hr : isReset i
    · obtain ⟨cfg, rfl⟩ := id hr
      obtain ⟨-, rfl⟩ := exec_reset_eq_next h
      exact ⟨absurd hr, absurd hr, (absurd · ha), fun _ => .inl ⟨hr, rfl⟩, fun _ => .inl hr, (absurd · ha),
        fun _ => ⟨hr, rfl⟩, rfl⟩
    · obtain ⟨⟨hcfg, hpos, hfault, hinputs⟩, hmode, hfb⟩ := exec_internal_frame ha hr h
      exact ⟨fun _ => hcfg, fun _ _ => hpos, (absurd · ha), fun hne => .inr (.inl (hmode.resolve_left hne)),
        fun hne => .inr (.inr (hfb.resolve_left hne)), (absurd · ha), fun hne => absurd hfault hne, hinputs⟩

/-- Settles O52, from what an `ACCEPT` step does in each mode, and what a reset leaves. -/
theorem everyStepFollowsTheWriteMap : Obligations.EveryStepFollowsTheWriteMap := by
  intro s t hstep
  obtain ⟨u, rest, hq, hs⟩ | ⟨cfg, rest, hq, hcfg, rfl⟩ := step_eq_next hstep
  · have hb := bitByte_is_bit (unitV u)
    obtain ⟨hcfg, hpos, hfault, hinputs⟩ := accept_frame hb hs
    refine .inl ⟨u, rest, hq, hinputs, hcfg, hpos, hfault, fun hm hu => ?_, fun hm hu => ?_, fun hm => ?_⟩
    · obtain ⟨hmode, hfb⟩ := accept_idle_eq_next hb hs hm
      exact ⟨by simpa [hu] using hmode, hfb hu⟩
    · obtain ⟨hmode, -⟩ := accept_idle_eq_next hb hs hm
      simpa [hu] using hmode
    · obtain ⟨hfb, hmode⟩ := accept_assembling_eq_next hb hs hm
      refine ⟨hmode.trans (if_congr t.fb.completes_iff_length rfl rfl), fun hwf a hne => ?_⟩
      rw [hfb] at hne ⊢
      rw [appended_read_before hwf, if_neg hne]
  · exact .inr ⟨cfg, rest, hq, rfl, hcfg, rfl, rfl, rfl, rfl, rfl⟩

end Sys2Proof

/-! ### What the configuration bits are read for -/

namespace Sys2Proof.Machine

/-! The flush reads two bits of the configuration: `verbose` for the trace, `crc_enabled` for the rest. -/

theorem frameAccepted_congr {c d : Byte} (h : crcEnabled c = crcEnabled d) (fb : FrameBuffer) :
    frameAccepted c fb = frameAccepted d fb := by
  rw [frameAccepted, frameAccepted, h]

theorem framePayload_congr {c d : Byte} (h : crcEnabled c = crcEnabled d) (fb : FrameBuffer) :
    framePayload c fb = framePayload d fb := by
  rw [framePayload, framePayload, payloadEnd, payloadEnd, h]

theorem flushCount_congr {c d : Byte} (h : crcEnabled c = crcEnabled d) (fb : FrameBuffer) :
    flushCount c fb = flushCount d fb := by
  rw [flushCount, flushCount, frameAccepted_congr h, payloadEnd, payloadEnd, h]

theorem flushEvents_congr {c d : Byte} (h : crcEnabled c = crcEnabled d) (hv : verbose c = verbose d)
    (fb : FrameBuffer) : flushEvents c fb = flushEvents d fb := by
  rw [flushEvents, flushEvents, frameAccepted_congr h, framePayload_congr h, hv]

theorem messagesOffered_flushEvents (c : Byte) (fb : FrameBuffer) :
    messagesOffered (flushEvents c fb) = if frameAccepted c fb then [framePayload c fb] else [] := by
  rw [flushEvents]
  cases verbose c <;> cases frameAccepted c fb <;> rfl

theorem tracesEmitted_flushEvents_of_quiet {c : Byte} (h : verbose c = false) (fb : FrameBuffer) :
    tracesEmitted (flushEvents c fb) = [] := by
  rw [flushEvents, h]
  cases frameAccepted c fb <;> rfl

/-! Each operation under another configuration with the same two bits. -/

/-- Two operations in sequence do the same under another configuration when each does, the second from the states the first
goes on to. -/
theorem andThen_withCfg {c : Byte} {r r' : Result} {k : State → Result} (hr : r' = withCfg c r)
    (hk : ∀ t, r = .next t → k { t with cfg := c } = withCfg c (k t)) :
    r'.andThen k = withCfg c (r.andThen k) := by
  subst hr
  match r with
  | .next t => exact hk t rfl
  | .fault (.raised _) => rfl
  | .fault (.marked _) => rfl
  | .fault (.noSuchByte _) => rfl
  | .refused _ => rfl

theorem appendBit_withCfg {c : Byte} {s : State} (hcrc : crcEnabled c = crcEnabled s.cfg) (bit : Byte) :
    appendBit bit { s with cfg := c } = withCfg c (appendBit bit s) := by
  rcases appendBit_cases bit s with ⟨hb, e⟩ | ⟨hb, hr, e⟩ | ⟨hb, hr, e⟩ <;> rw [e]
  · exact appendBit_of_bad_bit hb
  · exact appendBit_of_no_room hb (Nat.not_le.mpr hr)
  · rw [← hcrc]; exact appendBit_of_room (s := { s with cfg := c }) hb hr

theorem flush_withCfg {c : Byte} {s : State} (hcrc : crcEnabled c = crcEnabled s.cfg)
    (hv : verbose c = verbose s.cfg) : flush { s with cfg := c } = withCfg c (flush s) := by
  by_cases hin : s.fb.byteCursor < 2048
  · rw [flush_of_inside hin, flush_of_inside (s := { s with cfg := c }) hin, flushCount_congr hcrc,
      flushEvents_congr hcrc hv]
    rfl
  · rw [flush_of_outside (s := s) (by omega), flush_of_outside (s := { s with cfg := c }) (by simpa using hin)]
    rfl

theorem evalCompletion_withCfg {c : Byte} {s : State} (hcrc : crcEnabled c = crcEnabled s.cfg)
    (hv : verbose c = verbose s.cfg) : evalCompletion { s with cfg := c } = withCfg c (evalCompletion s) := by
  cases hc : s.fb.completes with
  | false => rw [evalCompletion_of_open hc]; exact evalCompletion_of_open hc
  | true =>
    have hc' : (s.fb.normalCompletion || s.fb.forcedCompletion) = true := hc
    rw [evalCompletion, evalCompletion, if_pos hc', if_pos hc']
    exact andThen_withCfg (flush_withCfg hcrc hv) fun _ _ => rfl

theorem accept_withCfg {c : Byte} {s : State} (hcrc : crcEnabled c = crcEnabled s.cfg)
    (hv : verbose c = verbose s.cfg) (bit : Byte) (sync : Bool) :
    accept bit sync { s with cfg := c } = withCfg c (accept bit sync s) := by
  obtain hf | ⟨m, hf⟩ := Option.eq_none_or_eq_some s.fault
  · obtain hm | hm : s.mode = .idle ∨ s.mode = .assembling := by cases s.mode <;> simp
    · rw [accept_of_idle hf hm, accept_of_idle (s := { s with cfg := c }) hf hm]
      cases sync with
      | false => rfl
      | true =>
        rw [acceptIdle, acceptIdle, if_pos rfl, if_pos rfl]
        exact andThen_withCfg (appendBit_withCfg (s := clearBuffer s.takeUnit) hcrc bit) fun _ _ => rfl
    · rw [accept_of_assembling hf hm, accept_of_assembling (s := { s with cfg := c }) hf hm]
      refine andThen_withCfg (appendBit_withCfg (s := s.takeUnit) hcrc bit) fun t ht => ?_
      obtain ⟨-, -, rfl⟩ := appendBit_eq_next ht
      exact evalCompletion_withCfg hcrc hv
  · rw [accept_of_marked hf]
    exact accept_of_marked (s := { s with cfg := c }) hf bit sync

/-- With `crc_enabled` as it is and the other bits as they like, an `ACCEPT` step changes the same fields: only the events of
its flush are those of the other configuration. -/
theorem accept_of_same_crcEnabled {c : Byte} {bit : Byte} (hb : bit = 0#8 ∨ bit = 1#8) {sync : Bool} {s t : State}
    (hcrc : crcEnabled c = crcEnabled s.cfg) (h : accept bit sync s = .next t) :
    ∃ es, accept bit sync { s with cfg := c } = .next { t with cfg := c, events := es, sent := s.sent ++ es } ∧
      (t.events = [] ∧ es = [] ∨ t.events = flushEvents s.cfg t.fb ∧ es = flushEvents c t.fb) := by
  obtain ⟨hf, -⟩ := accept_eq_next hb h
  rcases accept_cases hf hb sync with
      ⟨hm, rfl, e⟩ | ⟨hm, rfl, e⟩ | ⟨-, -, e⟩ | ⟨hm, hr, hc, e⟩ | ⟨hm, hr, hc, e⟩ <;>
    rw [e] at h <;> cases h
  · refine ⟨[], ?_, .inl ⟨rfl, rfl⟩⟩
    rw [List.append_nil]; exact accept_idle_discard (s := { s with cfg := c }) hf hm bit
  · refine ⟨[], ?_, .inl ⟨rfl, rfl⟩⟩
    rw [List.append_nil, ← hcrc]; exact accept_idle_sync (s := { s with cfg := c }) hf hm hb
  · refine ⟨[], ?_, .inl ⟨rfl, rfl⟩⟩
    rw [← hcrc] at hc ⊢
    rw [List.append_nil]; exact accept_assembling_open (s := { s with cfg := c }) hf hm hb sync hr hc
  · refine ⟨_, ?_, .inr ⟨rfl, rfl⟩⟩
    rw [← flushCount_congr hcrc]
    rw [← hcrc] at hc ⊢
    exact accept_assembling_complete (s := { s with cfg := c }) hf hm hb sync hr hc

theorem crcEnabled_invert_verbose (c : Byte) : crcEnabled (c ^^^ 0x02#8) = crcEnabled c := by
  revert c; decide

theorem verbose_invert_verbose (c : Byte) : verbose (c ^^^ 0x02#8) = !verbose c := by
  revert c; decide

end Sys2Proof.Machine

namespace Sys2Proof

open Machine

/-- Settles O45, operation by operation: only the append, the flush and what runs them read the configuration. -/
theorem upperConfigurationBitsAreNeverRead : Obligations.UpperConfigurationBitsAreNeverRead := by
  intro i s c hr hcrc hv
  cases i with
  | reset cfg => exact absurd ⟨cfg, rfl⟩ hr
  | acceptD0 | acceptD1 | acceptS0 | acceptS1 => exact accept_withCfg hcrc hv _ _
  | fbAppendBit bit => exact appendBit_withCfg (s := s.begin) hcrc bit
  | faEvalCompletion => exact evalCompletion_withCfg (s := s.begin) hcrc hv
  | faFlush => exact flush_withCfg (s := s.begin) hcrc hv
  | crc8Update | crc8Run | fbReset | fbCurrentLength | fbIsHeaderKnown | sinkDeliver | traceEmit => rfl

/-- Settles O44: inverting the flag leaves `crc_enabled`, and of what a flush emits it touches the trace only. -/
theorem verboseChangesOnlyTheTrace : Obligations.VerboseChangesOnlyTheTrace := by
  intro u s t h
  rw [exec_decodeUnit] at h ⊢
  have hb := bitByte_is_bit (unitV u)
  have hcrc := crcEnabled_invert_verbose s.cfg
  obtain ⟨es, he, hes⟩ := accept_of_same_crcEnabled hb hcrc h
  obtain ⟨hcfg, -⟩ := accept_frame hb h
  refine ⟨es, by rw [hcfg]; exact he, ?_⟩
  obtain ⟨ht, rfl⟩ | ⟨ht, rfl⟩ := hes
  · rw [ht]; exact ⟨rfl, fun _ => rfl, fun _ => rfl⟩
  · rw [ht]
    refine ⟨?_, fun hv => ?_, fun hv => tracesEmitted_flushEvents_of_quiet hv _⟩
    · rw [messagesOffered_flushEvents, messagesOffered_flushEvents, frameAccepted_congr hcrc, framePayload_congr hcrc]
    · exact tracesEmitted_flushEvents_of_quiet (by rw [verbose_invert_verbose, hv]; rfl) _

end Sys2Proof

/-! ### What an operation hands out -/

namespace Sys2Proof.Machine

/-- What an `ACCEPT` step that goes on hands out: nothing with the count 0, or the events and the count of one flush of the
frame it leaves (20_memory.md R62, 42_assembler.md R163, R165). -/
theorem accept_outputs {bit : Byte} (hb : bit = 0#8 ∨ bit = 1#8) {sync : Bool} {s t : State}
    (h : accept bit sync s = .next t) :
    t.sent = s.sent ++ t.events ∧
    (t.events = [] ∧ t.returned = .count 0 ∨
     t.events = flushEvents s.cfg t.fb ∧ t.returned = .count (flushCount s.cfg t.fb)) := by
  obtain ⟨-, ⟨-, -, rfl⟩ | ⟨-, -, rfl⟩ | ⟨-, -, rfl⟩ | ⟨-, -, rfl⟩⟩ := accept_eq_next hb h
  · exact ⟨(List.append_nil _).symm, .inl ⟨rfl, rfl⟩⟩
  · exact ⟨(List.append_nil _).symm, .inl ⟨rfl, rfl⟩⟩
  · exact ⟨(List.append_nil _).symm, .inl ⟨rfl, rfl⟩⟩
  · exact ⟨rfl, .inr ⟨rfl, rfl⟩⟩

/-- An internal operation or a reset starts from an empty output list, and hands out what it puts on it. -/
theorem exec_sent_of_not_isAccept {i : Instr} (ha : ¬ isAccept i) {s t : State} (h : exec i s = .next t) :
    t.sent = s.sent ++ t.events := by
  cases i with
  | acceptD0 r => exact absurd (.inl ⟨r, .inl rfl⟩) ha
  | acceptD1 r => exact absurd (.inl ⟨r, .inr rfl⟩) ha
  | acceptS0 r => exact absurd (.inr ⟨r, .inl rfl⟩) ha
  | acceptS1 r => exact absurd (.inr ⟨r, .inr rfl⟩) ha
  | reset cfg =>
    obtain ⟨-, rfl⟩ := exec_reset_eq_next h
    exact (List.append_nil _).symm
  | fbAppendBit bit =>
    obtain ⟨-, -, rfl⟩ := appendBit_eq_next h
    exact (List.append_nil _).symm
  | faEvalCompletion =>
    obtain rfl | rfl := evalCompletion_eq_next h
    · exact (List.append_nil _).symm
    · rfl
  | faFlush =>
    obtain rfl := flush_eq_next h
    rfl
  | sinkDeliver | traceEmit => cases h; rfl
  | crc8Update | crc8Run | fbReset | fbCurrentLength | fbIsHeaderKnown =>
    cases h; exact (List.append_nil _).symm

/-- One flush emits at most one trace and then at most one delivery (42_assembler.md R165). -/
theorem flushEvents_shape (cfg : Byte) (fb : FrameBuffer) :
    flushEvents cfg fb = [] ∨ (∃ b, flushEvents cfg fb = [.trace b]) ∨ (∃ p, flushEvents cfg fb = [.deliver p]) ∨
      ∃ b p, flushEvents cfg fb = [.trace b, .deliver p] := by
  rw [flushEvents]
  cases verbose cfg <;> cases frameAccepted cfg fb
  · exact .inl rfl
  · exact .inr (.inr (.inl ⟨_, rfl⟩))
  · exact .inr (.inl ⟨_, rfl⟩)
  · exact .inr (.inr (.inr ⟨_, _, rfl⟩))

/-- The count of a flush is the length of the payload it delivers, 0 without a delivery (42_assembler.md R172). -/
theorem echoStream_flushEvents_length (cfg : Byte) (fb : FrameBuffer) :
    (echoStream (flushEvents cfg fb)).length = flushCount cfg fb := by
  rw [echoStream, messagesOffered_flushEvents, flushCount]
  split <;> simp

theorem messagesOffered_flushEvents_length_le (cfg : Byte) (fb : FrameBuffer) :
    (messagesOffered (flushEvents cfg fb)).length ≤ 1 := by
  rw [messagesOffered_flushEvents]
  split <;> simp

end Sys2Proof.Machine

namespace Sys2Proof

open Machine

/-- Settles O26: a unit's command hands out what its step emits, any other operation what it puts on its own list. -/
theorem handedOverEventsAreNeverTakenBack : Obligations.HandedOverEventsAreNeverTakenBack := by
  intro i s t h
  by_cases ha : isAccept i
  · obtain ⟨bit, sync, hb, -, -, hexec⟩ := exec_of_isAccept ha
    rw [hexec] at h
    exact (accept_outputs hb h).1
  · exact exec_sent_of_not_isAccept ha h

/-- Settles O27: a unit hands out nothing and counts 0, or hands out and counts what one flush does. -/
theorem unitEmitsTraceThenDelivery : Obligations.UnitEmitsTraceThenDelivery := by
  intro u s t h
  rw [exec_decodeUnit] at h
  obtain ⟨-, ⟨he, hr⟩ | ⟨he, hr⟩⟩ := accept_outputs (bitByte_is_bit _) h
  · rw [he, State.count_of_returned hr]
    exact ⟨.inl rfl, rfl, Nat.zero_le 1, 0, hr⟩
  · rw [he, State.count_of_returned hr]
    exact ⟨flushEvents_shape _ _, (echoStream_flushEvents_length _ _).symm, messagesOffered_flushEvents_length_le _ _,
      _, hr⟩

end Sys2Proof

/-! ### The encoding of units -/

namespace Sys2Proof

open Machine

/-- Bits 1:0 of a unit hold exactly its two fields (30_encoding.md R70). -/
theorem low_bits_eq_mkUnit_iff (u : Byte) (s v : Bool) :
    (u &&& 0x03#8) = mkUnit 0#6 s v ↔ unitS u = s ∧ unitV u = v := by
  revert u s v; decide

/-- Units that agree in bits 1:0 have the same fields. -/
theorem unit_fields_of_low_bits {u v : Byte} (h : (u &&& 0x03#8) = (v &&& 0x03#8)) :
    unitS u = unitS v ∧ unitV u = unitV v :=
  (low_bits_eq_mkUnit_iff u _ _).mp (h.trans ((low_bits_eq_mkUnit_iff v _ _).mpr ⟨rfl, rfl⟩))

/-! The rows of the table of 30_encoding.md R71. -/

theorem decodeUnit_eq_acceptD0_iff (u : Byte) (r : BitVec 6) :
    decodeUnit u = .acceptD0 r ↔ (unitS u = false ∧ unitV u = false) ∧ unitRsvd u = r := by
  unfold decodeUnit; cases unitS u <;> cases unitV u <;> simp

theorem decodeUnit_eq_acceptD1_iff (u : Byte) (r : BitVec 6) :
    decodeUnit u = .acceptD1 r ↔ (unitS u = false ∧ unitV u = true) ∧ unitRsvd u = r := by
  unfold decodeUnit; cases unitS u <;> cases unitV u <;> simp

theorem decodeUnit_eq_acceptS0_iff (u : Byte) (r : BitVec 6) :
    decodeUnit u = .acceptS0 r ↔ (unitS u = true ∧ unitV u = false) ∧ unitRsvd u = r := by
  unfold decodeUnit; cases unitS u <;> cases unitV u <;> simp

theorem decodeUnit_eq_acceptS1_iff (u : Byte) (r : BitVec 6) :
    decodeUnit u = .acceptS1 r ↔ (unitS u = true ∧ unitV u = true) ∧ unitRsvd u = r := by
  unfold decodeUnit; cases unitS u <;> cases unitV u <;> simp

/-- Every unit selects one of the four commands (30_encoding.md R71, R72). -/
theorem isAccept_decodeUnit (u : Byte) : isAccept (decodeUnit u) := by
  unfold decodeUnit
  cases unitS u <;> cases unitV u
  · exact .inl ⟨_, .inl rfl⟩
  · exact .inl ⟨_, .inr rfl⟩
  · exact .inr ⟨_, .inl rfl⟩
  · exact .inr ⟨_, .inr rfl⟩

/-- The encoder is the decoder backwards, one unit at a time (30_encoding.md R71). -/
theorem encode_eq_some_iff {i : Instr} {u : Byte} : encode i = some u ↔ decodeUnit u = i := by
  refine ⟨fun h => ?_, fun h => h ▸ encode_decodeUnit u⟩
  cases i with
  | acceptD0 | acceptD1 | acceptS0 | acceptS1 => cases h; simp [decodeUnit]
  | _ => exact nomatch h

/-- Only the four input-unit commands have a unit (30_encoding.md R77). -/
theorem isAccept_iff_exists_unit {i : Instr} : isAccept i ↔ ∃ u, decodeUnit u = i := by
  refine ⟨fun h => ?_, fun ⟨u, hu⟩ => hu ▸ isAccept_decodeUnit u⟩
  obtain ⟨r, rfl | rfl⟩ | ⟨r, rfl | rfl⟩ := h <;> exact ⟨_, encode_eq_some_iff.mp rfl⟩

/-- A stream is encoded where its first command and the rest are. -/
theorem encodeStream_cons_eq_some_iff {i : Instr} {is : List Instr} {us : List Byte} :
    encodeStream (i :: is) = some us ↔
      ∃ v vs, us = v :: vs ∧ encode i = some v ∧ encodeStream is = some vs := by
  rw [encodeStream]
  cases encode i <;> cases encodeStream is <;> simp [eq_comm]

/-- The encoder is the decoder backwards, on whole streams. -/
theorem encodeStream_eq_some_iff {is : List Instr} {us : List Byte} :
    encodeStream is = some us ↔ decodeStream us = is := by
  induction is generalizing us with
  | nil =>
    rw [encodeStream, decodeStream, List.map_eq_nil_iff, Option.some.injEq, eq_comm]
  | cons i is ih =>
    simp only [encodeStream_cons_eq_some_iff, ih, encode_eq_some_iff, decodeStream, List.map_eq_cons_iff]

/-- Settles O3: the encoder is the decoder backwards, and what the decoder gives are the four commands. -/
theorem unitStreamsDecodeAndEncodeAgree : Obligations.UnitStreamsDecodeAndEncodeAgree := by
  refine ⟨fun is us => encodeStream_eq_some_iff.mp, fun us => encodeStream_eq_some_iff.mpr rfl, fun is => ?_⟩
  have hrange : (∃ us, decodeStream us = is) ↔ ∀ i ∈ is, ∃ u, decodeUnit u = i :=
    Set.ext_iff.mp (Set.range_list_map decodeUnit) is
  simpa only [encodeStream_eq_some_iff, isAccept_iff_exists_unit] using hrange

/-- Settles O1: each row of the table is one value of the two fields, and so of bits 1:0. -/
theorem unitBitsSelectCommand : Obligations.UnitBitsSelectCommand := by
  intro u
  simp only [decode_singleton_iff, decodeUnit_eq_acceptD0_iff, decodeUnit_eq_acceptD1_iff, decodeUnit_eq_acceptS0_iff,
    decodeUnit_eq_acceptS1_iff, exists_and_left, exists_eq', and_true]
  exact ⟨low_bits_eq_mkUnit_iff u false false, low_bits_eq_mkUnit_iff u false true,
    low_bits_eq_mkUnit_iff u true false, low_bits_eq_mkUnit_iff u true true⟩

/-- Settles O2, by evaluating the decoder on the written-out units. -/
theorem writtenOutUnitsDecode : Obligations.WrittenOutUnitsDecode :=
  ⟨rfl, rfl, rfl, rfl, rfl, rfl⟩

end Sys2Proof

/-! ### What the reserved bits of a unit and of a configuration are read for -/

namespace Sys2Proof.Machine

/-- A unit's effect is that of its two fields (30_encoding.md R72, R73). -/
theorem exec_decodeUnit_congr {u v : Byte} (h : (u &&& 0x03#8) = (v &&& 0x03#8)) (s : State) :
    exec (decodeUnit u) s = exec (decodeUnit v) s := by
  obtain ⟨hS, hV⟩ := unit_fields_of_low_bits h
  rw [exec_decodeUnit, exec_decodeUnit, hS, hV]

/-- An `ACCEPT` step goes on or faults. -/
theorem accept_ne_refused {bit : Byte} (hb : bit = 0#8 ∨ bit = 1#8) (sync : Bool) (s : State) (r : Refusal) :
    accept bit sync s ≠ .refused r := by
  cases hf : s.fault with
  | some m => rw [accept_of_marked hf]; exact nofun
  | none =>
    rcases accept_cases hf hb sync with ⟨-, -, e⟩ | ⟨-, -, e⟩ | ⟨-, -, e⟩ | ⟨-, -, -, e⟩ | ⟨-, -, -, e⟩ <;>
      rw [e] <;> exact nofun

/-- Batches run alike where their first units do and the rests do from every state. -/
theorem runBatch_cons_congr {u v : Byte} {us vs : List Byte} {s : State}
    (hfirst : exec (decodeUnit u) s = exec (decodeUnit v) s) (hrest : ∀ t, runBatch us t = runBatch vs t) :
    runBatch (u :: us) s = runBatch (v :: vs) s := by
  simp only [runBatch, hfirst, hrest]

theorem legalCfg_iff (cfg : Byte) :
    legalCfg cfg = true ↔ cfg.extractLsb' 3 5 = 0#5 ∧ cfg.getLsbD 2 = cfg.getLsbD 0 := by
  simp [legalCfg, cfgReserved, dropCrc, crcEnabled]

/-- `RESET` goes on exactly with the legal configurations (30_encoding.md R76). -/
theorem exec_reset_goes_on_iff (cfg : Byte) (s : State) :
    (∃ t, exec (.reset cfg) s = .next t) ↔ legalCfg cfg = true :=
  ⟨fun ⟨_, h⟩ => (exec_reset_eq_next h).1, fun h => ⟨_, if_pos h⟩⟩

end Sys2Proof.Machine

namespace Sys2Proof

open Machine

/-- Settles O4: `ACCEPT` reads the two fields of a unit, and never refuses. -/
theorem reservedUnitBitsAreIgnored : Obligations.ReservedUnitBitsAreIgnored := by
  refine ⟨fun u v s h => exec_decodeUnit_congr h s, fun u => ⟨_, rfl, isAccept_decodeUnit u⟩, fun u s r => ?_⟩
  rw [exec_decodeUnit]
  exact accept_ne_refused (bitByte_is_bit _) _ s r

/-- Settles O5, by induction over the two streams. -/
theorem reservedUnitBitsNeverMatterInARun : Obligations.ReservedUnitBitsNeverMatterInARun := by
  intro us vs s h
  induction us generalizing vs s with
  | nil => rw [List.map_eq_nil_iff.mp h.symm]
  | cons u us ih =>
    obtain ⟨v, vs, rfl, hv, hvs⟩ := List.map_eq_cons_iff.mp h.symm
    exact runBatch_cons_congr (exec_decodeUnit_congr hv.symm s) fun t => ih vs t hvs.symm

/-- Settles O31: the listed words are the legal ones, and `RESET` refuses the others. -/
theorem illegalConfigurationIsRefused : Obligations.IllegalConfigurationIsRefused := by
  refine fun cfg s => ⟨fun ⟨h0, h2, h5, h7⟩ => ?_, (exec_reset_goes_on_iff cfg s).trans (legalCfg_iff cfg)⟩
  have hillegal : ¬ legalCfg cfg = true := by
    rw [legalCfg_iff_listed]
    simp [legalCfgWords, h0, h2, h5, h7]
  exact if_neg hillegal

end Sys2Proof

/-! ### Bits, bytes and the groups of eight bits in a stream -/

namespace Sys2Proof.Machine

@[simp] theorem bitsValue_nil : bitsValue [] = 0 := rfl

theorem bitsValue_concat (bits : List Bool) (b : Bool) : bitsValue (bits ++ [b]) = 2 * bitsValue bits + b.toNat := by
  simp [bitsValue]

theorem bitsValue_lt (bits : List Bool) : bitsValue bits < 2 ^ bits.length := by
  induction bits using List.reverseRecOn with
  | nil => decide
  | append_singleton bits b ih =>
    have := b.toNat_lt
    rw [bitsValue_concat, List.length_append, List.length_singleton, Nat.pow_succ]
    omega

@[simp] theorem bitsMsbFirst_length (x : Byte) : (bitsMsbFirst x).length = 8 := by
  simp [bitsMsbFirst]

/-- The bits of a byte spell it (20_memory.md R53). -/
@[simp] theorem bitsValue_bitsMsbFirst (x : Byte) : bitsValue (bitsMsbFirst x) = x.toNat := by
  revert x; decide

/-- The bits of a stream that spell its byte `j`: the `j`-th group of eight, or what there is of it
(41_framebuffer.md R131). -/
def bitGroup (bits : List Bool) (j : Nat) : List Bool := (bits.drop (8 * j)).take 8

theorem bitGroup_eq_nil {bits : List Bool} {j : Nat} (h : bits.length ≤ 8 * j) : bitGroup bits j = [] := by
  rw [bitGroup, List.drop_eq_nil_of_le h, List.take_nil]

theorem bitGroup_length_of_last {bits : List Bool} {j : Nat} (h : bits.length / 8 = j) :
    (bitGroup bits j).length = bits.length % 8 := by
  rw [bitGroup, List.length_take, List.length_drop]
  omega

/-- One more bit joins the last group, and no other. -/
theorem bitGroup_concat (bits : List Bool) (b : Bool) (j : Nat) :
    bitGroup (bits ++ [b]) j = if j = bits.length / 8 then bitGroup bits j ++ [b] else bitGroup bits j := by
  unfold bitGroup
  split
  case isTrue hj =>
    have hlen : (bits.drop (8 * j)).length < 8 := by rw [List.length_drop]; omega
    rw [List.drop_append_of_le_length (by omega), List.take_of_length_le (by simp; omega),
      List.take_of_length_le (by omega)]
  case isFalse hj =>
    rcases Nat.lt_or_gt_of_ne hj with hlt | hgt
    · rw [List.drop_append_of_le_length (by omega), List.take_append_of_le_length (by rw [List.length_drop]; omega)]
    · rw [List.drop_eq_nil_of_le (by simp; omega), List.drop_eq_nil_of_le (by omega)]

/-- The groups of the bits of a byte sequence are the bits of its bytes. -/
theorem bitGroup_flatMap_bitsMsbFirst {bytes : List Byte} {j : Nat} (h : j < bytes.length) :
    bitGroup (bytes.flatMap bitsMsbFirst) j = bitsMsbFirst bytes[j] := by
  induction bytes generalizing j with
  | nil => exact absurd h (Nat.not_lt_zero j)
  | cons x bytes ih =>
    cases j with
    | zero => simp [bitGroup, List.flatMap_cons]
    | succ j =>
      rw [List.getElem_cons_succ, ← ih (by simpa using h), bitGroup, bitGroup, List.flatMap_cons,
        show 8 * (j + 1) = (bitsMsbFirst x).length + 8 * j by rw [bitsMsbFirst_length]; omega, List.drop_length_add_append]

theorem flatMap_bitsMsbFirst_length (bytes : List Byte) : (bytes.flatMap bitsMsbFirst).length = 8 * bytes.length := by
  simp [List.length_flatMap, Nat.mul_comm]

end Sys2Proof.Machine

/-! ### The buffer that a stream of bits spells -/

namespace Sys2Proof.Machine

/-- The frame length, in bytes, that the first eight bits of a stream declare (41_framebuffer.md R125). -/
def spelledLen (crc : Bool) (bits : List Bool) : Nat := bitsValue (bitGroup bits 0) + (if crc then 1 else 0) + 1

/-- The buffer holds exactly these bits, as `FB.RESET` and an append of each leave it (41_framebuffer.md R131). -/
structure FrameBuffer.Spells (crc : Bool) (bits : List Bool) (fb : FrameBuffer) : Prop where
  some_bit : 1 ≤ bits.length
  fits : bits.length ≤ 16384
  canonical : fb.bytes.wf = true
  byte_cursor : fb.byteCursor = (bits.length - 1) / 8
  bit_cursor : fb.bitCursor = (bits.length - 1) % 8 + 1
  expected_len : fb.expectedLen = if 8 < bits.length then some (spelledLen crc bits) else none
  read_toNat : ∀ j, (fb.bytes.read j).toNat = bitsValue (bitGroup bits j)

/-- From the ninth bit on the declared length stands. -/
theorem spelledLen_concat (crc : Bool) {bits : List Bool} (h : 8 ≤ bits.length) (b : Bool) :
    spelledLen crc (bits ++ [b]) = spelledLen crc bits := by
  rw [spelledLen, bitGroup_concat, if_neg (by omega), spelledLen]

/-- The first bit after `FB.RESET` (42_assembler.md R154, R155). -/
theorem FrameBuffer.spells_singleton (crc b : Bool) :
    (appended crc (bitByte b) FrameBuffer.cleared).Spells crc [b] := by
  refine ⟨Nat.le_refl 1, by simp, appended_wf rfl _ _, by simp [appended_byteCursor], by simp [appended_bitCursor],
    by simp [appended_expectedLen_before], fun j => ?_⟩
  rw [appended_read rfl, show advanceByte FrameBuffer.cleared = FrameBuffer.cleared from rfl,
    FrameBuffer.cleared_byteCursor]
  by_cases hj : j = 0
  · subst hj; cases b <;> rfl
  · rw [if_neg hj, bitGroup_eq_nil (by rw [List.length_singleton]; omega)]; rfl

namespace FrameBuffer.Spells

variable {crc : Bool} {bits : List Bool} {fb : FrameBuffer} (h : fb.Spells crc bits)

include h

theorem bitCursor_eq_eight_iff : fb.bitCursor = 8 ↔ bits.length % 8 = 0 := by
  have := h.some_bit
  rw [h.bit_cursor]
  omega

theorem advanceByte_byteCursor_eq : (advanceByte fb).byteCursor = bits.length / 8 := by
  have := h.some_bit
  rw [advanceByte_byteCursor, if_congr h.bitCursor_eq_eight_iff rfl rfl, h.byte_cursor]
  split <;> omega

/-- The byte an append writes spells the last group with the new bit; the other bytes stay (41_framebuffer.md R126). -/
theorem appended_read_toNat (b : Bool) (j : Nat) :
    ((appended crc (bitByte b) fb).bytes.read j).toNat = bitsValue (bitGroup (bits ++ [b]) j) := by
  rw [appended_read h.canonical, h.advanceByte_byteCursor_eq, bitGroup_concat, advanceByte_bitCursor,
    if_congr h.bitCursor_eq_eight_iff rfl rfl]
  by_cases hj : j = bits.length / 8
  · rw [if_pos hj, if_pos hj, bitsValue_concat, ← h.read_toNat j, ← hj]
    have hlen := bitGroup_length_of_last hj.symm
    by_cases h0 : bits.length % 8 = 0
    · rw [if_pos h0, if_pos rfl, h.read_toNat, List.eq_nil_of_length_eq_zero (hlen.trans h0), bitByte_toNat]
      simp
    · have hpart : (fb.bytes.read j).toNat < 2 ^ (bits.length % 8) := by
        rw [h.read_toNat, ← hlen]; exact bitsValue_lt _
      rw [if_neg h0, if_neg (by rw [h.bit_cursor]; omega),
        shiftIn_toNat (Nat.mod_lt _ (by decide)) hpart (bitByte_is_bit b), bitByte_toNat]
  · rw [if_neg hj, if_neg hj, h.read_toNat]

/-- The header latch runs with the ninth bit and never again (41_framebuffer.md R124). -/
theorem appended_expectedLen_eq (b : Bool) :
    (appended crc (bitByte b) fb).expectedLen =
      if 8 < (bits ++ [b]).length then some (spelledLen crc (bits ++ [b])) else none := by
  have hsome := h.some_bit
  have hlen : (bits ++ [b]).length = bits.length + 1 := by simp
  have hlatch : (fb.expectedLen = none ∧
      (fb.bitCursor = 8 ∧ fb.byteCursor = 0 ∨ fb.bitCursor = 0 ∧ fb.byteCursor = 1)) ↔ bits.length = 8 := by
    rw [h.expected_len, h.bit_cursor, h.byte_cursor, ite_eq_right_iff]
    simp only [reduceCtorEq, imp_false]
    omega
  rw [appended_expectedLen_before, if_congr hlatch rfl rfl, h.expected_len, h.read_toNat, hlen]
  rcases Nat.lt_or_ge bits.length 8 with hlt | hge
  · rw [if_neg (by omega), if_neg (by omega), if_neg (by omega)]
  · rw [spelledLen_concat crc hge, if_pos (show 8 < bits.length + 1 by omega)]
    split
    · rfl
    · rw [if_pos (by omega)]

/-- One more bit, while the buffer has room (41_framebuffer.md R131). -/
theorem concat (hroom : bits.length < 16384) (b : Bool) :
    (appended crc (bitByte b) fb).Spells crc (bits ++ [b]) := by
  have hsome := h.some_bit
  have hlen : (bits ++ [b]).length = bits.length + 1 := by simp
  refine ⟨by omega, by omega, appended_wf h.canonical _ _, ?_, ?_, h.appended_expectedLen_eq b, h.appended_read_toNat b⟩
  · rw [appended_byteCursor_eq_advance, h.advanceByte_byteCursor_eq, hlen, Nat.add_sub_cancel]
  · rw [appended_bitCursor, if_congr h.bitCursor_eq_eight_iff rfl rfl, h.bit_cursor, hlen]
    split <;> omega

end FrameBuffer.Spells

end Sys2Proof.Machine

/-! ### Units received into a frame -/

namespace Sys2Proof.Machine

/-- A frame of these bits completes with the last of them: it is the last of the declared length, or it reaches byte 2047
(42_assembler.md R160, R161). -/
def CompletesFrame (crc : Bool) (bits : List Bool) : Prop :=
  8 < bits.length ∧ bits.length = 8 * spelledLen crc bits ∨ 16376 < bits.length

theorem FrameBuffer.Spells.completes_iff {crc : Bool} {bits : List Bool} {fb : FrameBuffer} (h : fb.Spells crc bits) :
    fb.completes = true ↔ CompletesFrame crc bits := by
  have hsome := h.some_bit
  have hfits := h.fits
  rw [FrameBuffer.completes_iff_length, CompletesFrame, h.bit_cursor, h.byte_cursor, h.expected_len]
  refine or_congr ?_ (by omega)
  split
  · rw [Option.some.injEq]; omega
  · simp; omega

theorem FrameBuffer.Spells.completes_eq_false_iff {crc : Bool} {bits : List Bool} {fb : FrameBuffer}
    (h : fb.Spells crc bits) : fb.completes = false ↔ ¬ CompletesFrame crc bits := by
  rw [← h.completes_iff, Bool.not_eq_true]

/-- The block is in a frame that has these bits so far. -/
structure State.Receiving (bits : List Bool) (s : State) : Prop where
  unmarked : s.fault = none
  assembling : s.mode = .assembling
  spells : s.fb.Spells (crcEnabled s.cfg) bits
  incomplete : ¬ CompletesFrame (crcEnabled s.cfg) bits

theorem State.Receiving.length_lt {bits : List Bool} {s : State} (h : s.Receiving bits) : bits.length < 16384 := by
  have : ¬ 16376 < bits.length := fun hlt => h.incomplete (.inr hlt)
  omega

/-- A frame in reception has room for another bit (41_framebuffer.md R128). -/
theorem State.Receiving.room {bits : List Bool} {s : State} (h : s.Receiving bits) :
    (advanceByte s.fb).byteCursor ≤ 2047 := by
  have := h.length_lt
  rw [h.spells.advanceByte_byteCursor_eq]
  omega

/-- The sync unit that starts a frame, in `Idle` (42_assembler.md R154, R155). -/
theorem exec_unit_starts_frame {s : State} (hf : s.fault = none) (hm : s.mode = .idle) {u : Byte} (hu : unitS u = true) :
    ∃ t, exec (decodeUnit u) s = .next t ∧ t.Receiving [unitV u] ∧
      t.returned = .count 0 ∧ t.sent = s.sent ∧ t.cfg = s.cfg := by
  rw [exec_decodeUnit, hu]
  exact ⟨_, accept_idle_sync hf hm (bitByte_is_bit _),
    ⟨hf, rfl, FrameBuffer.spells_singleton _ _, by simp [CompletesFrame]⟩, rfl, rfl, rfl⟩

/-- A unit that goes on with the frame, whatever its sync flag (42_assembler.md R157, R164). -/
theorem State.Receiving.exec_unit_continues {bits : List Bool} {s : State} (h : s.Receiving bits) {u : Byte}
    (hc : ¬ CompletesFrame (crcEnabled s.cfg) (bits ++ [unitV u])) :
    ∃ t, exec (decodeUnit u) s = .next t ∧ t.Receiving (bits ++ [unitV u]) ∧
      t.returned = .count 0 ∧ t.sent = s.sent ∧ t.cfg = s.cfg := by
  have hspells := h.spells.concat h.length_lt (unitV u)
  rw [exec_decodeUnit]
  exact ⟨_, accept_assembling_open h.unmarked h.assembling (bitByte_is_bit _) _ h.room
      (hspells.completes_eq_false_iff.mpr hc),
    ⟨h.unmarked, h.assembling, hspells, hc⟩, rfl, rfl, rfl⟩

/-- A state `t` in which the frame of these bits, received from `s` on, has completed (42_assembler.md R159, R163). -/
structure State.FrameDone (bits : List Bool) (s t : State) : Prop where
  unmarked : t.fault = none
  idle : t.mode = .idle
  spells : t.fb.Spells (crcEnabled s.cfg) bits
  returned : t.returned = .count (flushCount s.cfg t.fb)
  sent : t.sent = s.sent ++ flushEvents s.cfg t.fb

/-- Units that change neither the configuration nor what was handed out may come before. -/
theorem State.FrameDone.from_earlier {bits : List Bool} {s s₁ t : State} (h : s₁.FrameDone bits t)
    (hcfg : s₁.cfg = s.cfg) (hsent : s₁.sent = s.sent) : s.FrameDone bits t := by
  obtain ⟨hunmarked, hidle, hspells, hreturned, hsent'⟩ := h
  rw [hcfg] at hspells hreturned hsent'
  exact ⟨hunmarked, hidle, hspells, hreturned, hsent ▸ hsent'⟩

/-- The unit that completes the frame, whatever its sync flag (42_assembler.md R157, R163). -/
theorem State.Receiving.exec_unit_completes {bits : List Bool} {s : State} (h : s.Receiving bits) {u : Byte}
    (hc : CompletesFrame (crcEnabled s.cfg) (bits ++ [unitV u])) :
    ∃ t, exec (decodeUnit u) s = .next t ∧ s.FrameDone (bits ++ [unitV u]) t := by
  have hspells := h.spells.concat h.length_lt (unitV u)
  rw [exec_decodeUnit]
  exact ⟨_, accept_assembling_complete h.unmarked h.assembling (bitByte_is_bit _) _ h.room (hspells.completes_iff.mpr hc),
    h.unmarked, rfl, hspells, rfl, rfl⟩

/-! Batches of units within a frame. -/

/-- A batch in two parts counts what both count. -/
theorem runBatch_append_of {us vs : List Byte} {s t r : State} {m n : Nat} (hu : runBatch us s = .next (t, m))
    (hv : runBatch vs t = .next (r, n)) : runBatch (us ++ vs) s = .next (r, m + n) := by
  induction us generalizing s m with
  | nil =>
    obtain ⟨rfl, rfl, -⟩ := runBatch_nil_eq_next hu
    rwa [List.nil_append, Nat.zero_add]
  | cons u us ih =>
    obtain ⟨s₁, k, hstep, hrest, rfl⟩ := runBatch_cons_eq_next hu
    rw [List.cons_append, runBatch_cons_of hstep (ih hrest), Nat.add_assoc]

/-- Units none of which completes the frame are received into it. -/
theorem State.Receiving.runBatch_continues {bits : List Bool} {s : State} (h : s.Receiving bits) {us : List Byte}
    (hopen : ∀ p, p <+: bits ++ us.map unitV → ¬ CompletesFrame (crcEnabled s.cfg) p) :
    ∃ t, runBatch us s = .next (t, 0) ∧ t.Receiving (bits ++ us.map unitV) ∧ t.sent = s.sent ∧ t.cfg = s.cfg := by
  induction us generalizing s bits with
  | nil => exact ⟨s, runBatch_nil_of_unmarked h.unmarked, by simpa using h, rfl, rfl⟩
  | cons u us ih =>
    rw [List.map_cons, List.append_cons] at hopen ⊢
    obtain ⟨t, hstep, ht, hret, hsent, hcfg⟩ := h.exec_unit_continues (hopen _ (List.prefix_append _ _))
    obtain ⟨r, hrun, hr, hsent', hcfg'⟩ := ih ht (hcfg ▸ hopen)
    refine ⟨r, ?_, hr, hsent'.trans hsent, hcfg'.trans hcfg⟩
    rw [runBatch_cons_of hstep hrun, State.count_of_returned hret]

/-- From `Idle`, a sync unit and more units that complete nothing are a frame in reception. -/
theorem runBatch_opens_frame {s : State} (hf : s.fault = none) (hm : s.mode = .idle) {us : List Byte}
    (hsync : us.head?.map unitS = some true)
    (hopen : ∀ p, p <+: us.map unitV → ¬ CompletesFrame (crcEnabled s.cfg) p) :
    ∃ t, runBatch us s = .next (t, 0) ∧ t.Receiving (us.map unitV) ∧ t.sent = s.sent ∧ t.cfg = s.cfg := by
  cases us with
  | nil => exact nomatch hsync
  | cons u us =>
    obtain ⟨t, hstep, ht, hret, hsent, hcfg⟩ := exec_unit_starts_frame hf hm (u := u) (by simpa using hsync)
    obtain ⟨r, hrun, hr, hsent', hcfg'⟩ := ht.runBatch_continues (us := us) (hcfg ▸ hopen)
    refine ⟨r, ?_, hr, hsent'.trans hsent, hcfg'.trans hcfg⟩
    rw [runBatch_cons_of hstep hrun, State.count_of_returned hret]

/-- From `Idle`, units that start with a sync unit and of which the last and no other completes the frame: one flush, of the
buffer that their bits spell (30_encoding.md R78, 42_assembler.md R163). -/
theorem runBatch_whole_frame {s : State} (hf : s.fault = none) (hm : s.mode = .idle) {us : List Byte}
    (hsync : us.head?.map unitS = some true) (hlast : CompletesFrame (crcEnabled s.cfg) (us.map unitV))
    (hopen : ∀ p, p <+: us.map unitV → p.length < us.length → ¬ CompletesFrame (crcEnabled s.cfg) p) :
    ∃ t, runBatch us s = .next (t, flushCount s.cfg t.fb) ∧ s.FrameDone (us.map unitV) t := by
  cases us using List.reverseRecOn with
  | nil => exact nomatch hsync
  | append_singleton us u _ =>
    have hsome : us ≠ [] := by
      rintro rfl
      simp [CompletesFrame] at hlast
    rw [List.head?_append_of_ne_nil us hsome] at hsync
    rw [List.map_append] at hlast hopen ⊢
    obtain ⟨t, hrun, ht, hsent, hcfg⟩ := runBatch_opens_frame hf hm hsync fun p hp =>
      hopen p (hp.trans (List.prefix_append _ _)) (by simpa using Nat.lt_succ_of_le hp.length_le)
    obtain ⟨r, hstep, hr⟩ := ht.exec_unit_completes (u := u) (hcfg ▸ hlast)
    have hdone := hr.from_earlier hcfg hsent
    have hunit : runBatch [u] t = .next (r, flushCount s.cfg r.fb + 0) := by
      rw [runBatch_cons_of hstep (runBatch_nil_of_unmarked hr.unmarked), State.count_of_returned hdone.returned]
    refine ⟨r, ?_, hdone⟩
    rw [runBatch_append_of hrun hunit, Nat.zero_add, Nat.add_zero]

/-! A batch as steps of the machine over its queue. -/

/-- An `ACCEPT` step does not read the queue. -/
theorem accept_with_inputs {bit : Byte} (hb : bit = 0#8 ∨ bit = 1#8) {sync : Bool} {s t : State}
    (h : accept bit sync s = .next t) (q : List Stimulus) :
    accept bit sync { s with inputs := q } = .next { t with inputs := q } := by
  obtain ⟨hf, -⟩ := accept_eq_next hb h
  rcases accept_cases hf hb sync with
      ⟨hm, rfl, e⟩ | ⟨hm, rfl, e⟩ | ⟨-, -, e⟩ | ⟨hm, hr, hc, e⟩ | ⟨hm, hr, hc, e⟩ <;>
    rw [e] at h <;> cases h
  · exact accept_idle_discard (s := { s with inputs := q }) hf hm bit
  · exact accept_idle_sync (s := { s with inputs := q }) hf hm hb
  · exact accept_assembling_open (s := { s with inputs := q }) hf hm hb sync hr hc
  · exact accept_assembling_complete (s := { s with inputs := q }) hf hm hb sync hr hc

/-- The step of the machine takes the first presented unit and leaves the others presented. -/
theorem step_present_cons {u : Byte} {us : List Byte} {s t : State} (h : exec (decodeUnit u) s = .next t) :
    step (s.present (u :: us)) = .next (t.present us) := by
  rw [exec_decodeUnit] at h
  obtain ⟨-, -, -, hinputs⟩ := accept_frame (bitByte_is_bit _) h
  rw [step_of_unit (rest := us.map .unit ++ s.inputs) rfl, exec_decodeUnit,
    show t.present us = { t with inputs := us.map .unit ++ s.inputs } by rw [State.present, hinputs]]
  exact accept_with_inputs (bitByte_is_bit _) h _

theorem run_succ_of_step {M : Host.Core} {s t : M.State} (h : M.step s = .next t) (k : Nat) :
    M.run (k + 1) s = M.run k t := by
  rw [Host.Core.run, h]

/-- The machine's steps over the presented units of a batch end where the batch does (70_reset_and_hazards.md R250, R253). -/
theorem run_present_of_runBatch {us : List Byte} {s t : State} {n : Nat} (h : runBatch us s = .next (t, n)) :
    Host.Core.run Sys2Proof.core us.length (s.present us) = .next t := by
  induction us generalizing s n with
  | nil =>
    obtain ⟨rfl, -, -⟩ := runBatch_nil_eq_next h
    rfl
  | cons u us ih =>
    obtain ⟨s₁, k, hstep, hrest, -⟩ := runBatch_cons_eq_next h
    have hone : Sys2Proof.core.step (s.present (u :: us)) = .next (s₁.present us) := step_present_cons hstep
    exact (run_succ_of_step hone us.length).trans (ih hrest)

end Sys2Proof.Machine

/-! ### The bytes of a frame -/

namespace Sys2Proof.Machine

/-- What a span reads of bytes that the memory holds from index 0 on. -/
theorem Memory.span_of_reads {m : Memory} {bytes : List Byte}
    (h : ∀ (j : Nat) (hj : j < bytes.length), m.read j = bytes[j]) {a n : Nat} (hn : a + n ≤ bytes.length) :
    m.span a n = (bytes.drop a).take n := by
  refine List.ext_getElem (by simp; omega) fun i hi _ => ?_
  rw [Memory.span_length] at hi
  simp [Memory.span, h (a + i) (by omega)]

theorem frame_bits_length (header crc : Byte) (payload : List Byte) :
    ((header :: payload ++ [crc]).flatMap bitsMsbFirst).length = 8 * (payload.length + 2) := by
  rw [flatMap_bitsMsbFirst_length]; simp

/-- The units of a frame with CRC, from the header's last on, declare the frame's length (30_encoding.md R78). -/
theorem spelledLen_of_frame_prefix {payload : List Byte} (hlen : payload.length ≤ 255) {crc : Byte} {p : List Bool}
    (hp : p <+: (BitVec.ofNat 8 payload.length :: payload ++ [crc]).flatMap bitsMsbFirst) (h8 : 8 ≤ p.length) :
    spelledLen true p = payload.length + 2 := by
  have hgroup : bitGroup p 0 = bitsMsbFirst (BitVec.ofNat 8 payload.length) := by
    rw [List.prefix_iff_eq_take.mp hp, bitGroup, Nat.mul_zero, List.drop_zero, List.take_take, Nat.min_eq_left h8]
    exact bitGroup_flatMap_bitsMsbFirst (j := 0) (by simp)
  rw [spelledLen, hgroup, bitsValue_bitsMsbFirst, BitVec.toNat_ofNat, Nat.mod_eq_of_lt (by omega)]
  rfl

/-- A frame with CRC completes with its last bit and not before (30_encoding.md R78, 42_assembler.md R160). -/
theorem completesFrame_prefix_iff {payload : List Byte} (hlen : payload.length ≤ 255) {crc : Byte} {p : List Bool}
    (hp : p <+: (BitVec.ofNat 8 payload.length :: payload ++ [crc]).flatMap bitsMsbFirst) :
    CompletesFrame true p ↔ p.length = 8 * (payload.length + 2) := by
  have hle := hp.length_le
  rw [frame_bits_length] at hle
  constructor
  · rintro (⟨h8, h⟩ | h)
    · rwa [spelledLen_of_frame_prefix hlen hp (by omega)] at h
    · omega
  · intro h
    refine .inl ⟨by omega, ?_⟩
    rwa [spelledLen_of_frame_prefix hlen hp (by omega)]

/-- A buffer that spells the bits of whole bytes holds those bytes. -/
theorem FrameBuffer.Spells.read_of_bytes {crc : Bool} {bytes : List Byte} {fb : FrameBuffer}
    (h : fb.Spells crc (bytes.flatMap bitsMsbFirst)) (j : Nat) (hj : j < bytes.length) : fb.bytes.read j = bytes[j] := by
  apply BitVec.eq_of_toNat_eq
  rw [h.read_toNat, bitGroup_flatMap_bitsMsbFirst hj, bitsValue_bitsMsbFirst]

/-- A buffer that spells whole bytes is at the end of the last (41_framebuffer.md R127). -/
theorem FrameBuffer.Spells.cursors_of_bytes {crc : Bool} {bytes : List Byte} {fb : FrameBuffer}
    (h : fb.Spells crc (bytes.flatMap bitsMsbFirst)) : fb.bitCursor = 8 ∧ fb.byteCursor + 1 = bytes.length := by
  have hsome := h.some_bit
  have hbit := h.bit_cursor
  have hbyte := h.byte_cursor
  rw [flatMap_bitsMsbFirst_length] at hsome hbit hbyte
  omega

/-- A buffer that spells a frame with CRC knows the frame's length (41_framebuffer.md R125). -/
theorem FrameBuffer.Spells.expectedLen_of_frame {payload : List Byte} (hlen : payload.length ≤ 255) {crc : Byte}
    {fb : FrameBuffer} (h : fb.Spells true ((BitVec.ofNat 8 payload.length :: payload ++ [crc]).flatMap bitsMsbFirst)) :
    fb.expectedLen = some (payload.length + 2) := by
  have hlength := frame_bits_length (BitVec.ofNat 8 payload.length) crc payload
  rw [h.expected_len, if_pos (by omega), spelledLen_of_frame_prefix hlen (List.prefix_refl _) (by omega)]

/-- The flush of a buffer that spells a frame with CRC: the whole frame is traced when verbose, and the payload is delivered
where the last byte is the CRC of the bytes before it (42_assembler.md R166 to R172; 90_conflicts.md C2). -/
theorem FrameBuffer.Spells.flush_of_frame {cfg : Byte} (hcrc : crcEnabled cfg = true) {header crc : Byte}
    {payload : List Byte} {fb : FrameBuffer}
    (h : fb.Spells (crcEnabled cfg) ((header :: payload ++ [crc]).flatMap bitsMsbFirst)) :
    flushEvents cfg fb =
      (if verbose cfg then [.trace (header :: payload ++ [crc])] else []) ++
      (if crc8Run (header :: payload) = crc then [.deliver payload] else []) ∧
    flushCount cfg fb = if crc8Run (header :: payload) = crc then payload.length else 0 := by
  have hreads := h.read_of_bytes
  have hbyte : fb.byteCursor = payload.length + 1 := by
    have := h.cursors_of_bytes.2
    simpa using this
  have hframe : fb.bytes.span 0 (payload.length + 1 + 1) = header :: payload ++ [crc] := by
    rw [Memory.span_of_reads hreads (by simp)]; simp
  have hchecked : fb.bytes.span 0 (payload.length + 1) = header :: payload := by
    rw [Memory.span_of_reads hreads (by simp)]; simp
  have hlast : fb.bytes.read (payload.length + 1) = crc := by
    rw [hreads _ (by simp)]; simp
  have hend : payloadEnd cfg fb = payload.length := by
    rw [payloadEnd_eq, if_pos hcrc, hbyte, Nat.add_sub_cancel]
  have hpayload : framePayload cfg fb = payload := by
    rw [framePayload, hend, Memory.span_of_reads hreads (by simp; omega)]; simp
  have haccepted : frameAccepted cfg fb = true ↔ crc8Run (header :: payload) = crc := by
    rw [frameAccepted_iff, hbyte, hchecked, hlast, hcrc]; simp
  rw [flushEvents, flushCount, if_congr haccepted rfl rfl, if_congr haccepted rfl rfl, hbyte, hframe, hpayload, hend]
  exact ⟨rfl, rfl⟩

/-- From `Idle` with CRC enabled, any units that spell a frame, right or wrong its CRC byte, the first with the sync flag, are
one whole frame (30_encoding.md R78). -/
theorem runBatch_frame_with_crc {s : State} (hf : s.fault = none) (hm : s.mode = .idle) (hcrc : crcEnabled s.cfg = true)
    {payload us : List Byte} (hlen : payload.length ≤ 255) {crc : Byte}
    (hbits : us.map unitV = (BitVec.ofNat 8 payload.length :: payload ++ [crc]).flatMap bitsMsbFirst)
    (hsync : us.head?.map unitS = some true) :
    us.length = 8 * (payload.length + 2) ∧
    ∃ t, runBatch us s = .next (t, flushCount s.cfg t.fb) ∧ s.FrameDone (us.map unitV) t := by
  have hcompletes : ∀ p, p <+: us.map unitV →
      (CompletesFrame (crcEnabled s.cfg) p ↔ p.length = 8 * (payload.length + 2)) := fun p hp => by
    rw [hcrc]; exact completesFrame_prefix_iff hlen (hbits ▸ hp)
  have hlength : us.length = 8 * (payload.length + 2) := by
    rw [← List.length_map (f := unitV), hbits, frame_bits_length]
  refine ⟨hlength, runBatch_whole_frame hf hm hsync ?_ fun p hp hlt => ?_⟩
  · rwa [hcompletes _ (List.prefix_refl _), List.length_map]
  · rw [hcompletes p hp]; omega

end Sys2Proof.Machine

namespace Sys2Proof

open Machine

/-- Settles O47: the units are one whole frame, whose flush accepts the right CRC, and the machine's steps over the queue are
those of the batch. -/
theorem frameWithRightCrcIsDelivered : Obligations.FrameWithRightCrcIsDelivered := by
  intro payload us s hlen hf hm hcrc header frame hbits hsync
  obtain ⟨hlength, t, hrun, hdone⟩ := runBatch_frame_with_crc hf hm hcrc hlen hbits hsync
  obtain ⟨hunmarked, hidle, hspells, hreturned, hsent⟩ := hdone
  obtain ⟨hpos, hcfg, hinputs⟩ := runBatch_frame hrun
  rw [hbits] at hspells
  obtain ⟨hevents, hcount⟩ := hspells.flush_of_frame hcrc
  rw [if_pos rfl] at hevents hcount
  obtain ⟨hbit, hbyte⟩ := hspells.cursors_of_bytes
  have hspan : t.fb.bytes.span 0 frame.length = frame := by
    rw [Memory.span_of_reads hspells.read_of_bytes (Nat.zero_add _).le, List.drop_zero, List.take_length]
  refine ⟨t, run_present_of_runBatch hrun, hlength, hidle, hcount ▸ hreturned, ?_, hspan, hbit, ?_,
    (hcrc ▸ hspells).expectedLen_of_frame hlen, hcfg, hpos, hunmarked, hinputs⟩
  · rw [hsent, hevents, List.append_assoc]
  · simpa [frame] using hbyte

end Sys2Proof

/-! ### The CRC-8 engine -/

namespace Sys2Proof.Machine

/-- `CRC8.UPDATE` as the machine runs it (40_crc8.md R101). -/
theorem exec_crc8Update (reg byte : Byte) (s : State) :
    exec (.crc8Update reg byte) s =
      .next { s with returned := .byte (Config.crc8Table (reg ^^^ byte)), events := [] } :=
  execCrc8Update_eq reg byte s

/-- `CRC8.RUN` as the machine runs it (40_crc8.md R102). -/
theorem exec_crc8Run (data : List Byte) (s : State) :
    exec (.crc8Run data) s = .next { s with returned := .byte (crc8Run data), events := [] } :=
  execCrc8Run_eq data s

/-- The table index is the same when one mask is put on both operands (40_crc8.md R101). -/
theorem xor_mask_both (reg byte k : Byte) : (reg ^^^ k) ^^^ (byte ^^^ k) = reg ^^^ byte := by
  rw [BitVec.xor_comm byte k, BitVec.xor_assoc, ← BitVec.xor_assoc k k byte, BitVec.xor_self, BitVec.zero_xor]

/-- The first table step meets the initial value 0 (40_crc8.md R102). -/
theorem crc8Run_singleton (a : Byte) : crc8Run [a] = Config.crc8Table a := by
  rw [← List.nil_append [a], crc8Run_concat, crc8Run_nil, crc8Update, BitVec.zero_xor]

theorem crc8Run_pair (a b : Byte) : crc8Run [a, b] = Config.crc8Table (Config.crc8Table a ^^^ b) := by
  rw [← List.singleton_append, crc8Run_concat, crc8Run_singleton, crc8Update]

end Sys2Proof.Machine

namespace Sys2Proof

open Machine

/-- Settles O14: both operands enter through their exclusive-or, which is 0 where they are equal. -/
theorem crc8UpdateReturnsTheTableEntry : Obligations.Crc8UpdateReturnsTheTableEntry := by
  refine fun reg byte k s => ⟨exec_crc8Update reg byte s, ?_, ?_⟩
  · rw [exec_crc8Update, exec_crc8Update, xor_mask_both]
  · rw [exec_crc8Update, BitVec.xor_self]

/-- Settles O15: the run over a first part is what the fold over the rest starts from. -/
theorem crc8RunFoldsTheTable : Obligations.Crc8RunFoldsTheTable := by
  refine ⟨fun s => ?empty, fun data b s => ⟨crc8Run data, exec_crc8Run data s, ?oneMore⟩,
    fun a b s => ⟨?one, ?two⟩, fun xs ys s => ⟨crc8Run xs, exec_crc8Run xs s, ?append⟩⟩
  case empty => rw [exec_crc8Run, crc8Run_nil]
  case oneMore => rw [exec_crc8Run, crc8Run_concat, crc8Update]
  case one => rw [exec_crc8Run, crc8Run_singleton]
  case two => rw [exec_crc8Run, crc8Run_pair]
  case append => rw [exec_crc8Run, crc8Run_append]; rfl

end Sys2Proof

/-! ### The frame buffer's own operations -/

namespace Sys2Proof.Machine

/-- What an operation on the buffer leaves: the buffer it makes, nothing returned and nothing handed out, every other field
as it was (41_framebuffer.md R121, R122). -/
def State.withBuffer (s : State) (fb : FrameBuffer) : State := { s.begin with fb := fb }

@[simp] theorem State.withBuffer_fb (s : State) (fb : FrameBuffer) : (s.withBuffer fb).fb = fb := rfl
@[simp] theorem State.withBuffer_cfg (s : State) (fb : FrameBuffer) : (s.withBuffer fb).cfg = s.cfg := rfl
@[simp] theorem State.withBuffer_fault (s : State) (fb : FrameBuffer) : (s.withBuffer fb).fault = s.fault := rfl

@[simp] theorem State.withBuffer_withBuffer (s : State) (fb fb' : FrameBuffer) :
    (s.withBuffer fb).withBuffer fb' = s.withBuffer fb' := rfl

/-- `FB.RESET` as the machine runs it (41_framebuffer.md R121). -/
theorem exec_fbReset (s : State) : exec .fbReset s = .next (s.withBuffer FrameBuffer.cleared) := rfl

/-- `FB.APPEND_BIT` as the machine runs it, while the buffer has room (41_framebuffer.md R122). -/
theorem exec_fbAppendBit_of_room {bit : Byte} {s : State} (hb : bit = 0#8 ∨ bit = 1#8)
    (h : (advanceByte s.fb).byteCursor ≤ 2047) :
    exec (.fbAppendBit bit) s = .next (s.withBuffer (appended (crcEnabled s.cfg) bit s.fb)) :=
  appendBit_of_room (s := s.begin) hb h

/-- An append that goes on appended (41_framebuffer.md R122). -/
theorem exec_fbAppendBit_eq_next {bit : Byte} {s t : State} (h : exec (.fbAppendBit bit) s = .next t) :
    t = s.withBuffer (appended (crcEnabled s.cfg) bit s.fb) :=
  (appendBit_eq_next (s := s.begin) h).2.2

/-- `FB.CURRENT_LENGTH` as the machine runs it (41_framebuffer.md R129). -/
theorem exec_fbCurrentLength (s : State) :
    exec .fbCurrentLength s = .next { s with returned := .index s.fb.byteCursor, events := [] } := rfl

/-- `FB.IS_HEADER_KNOWN` as the machine runs it (41_framebuffer.md R130). -/
theorem exec_fbIsHeaderKnown (s : State) :
    exec .fbIsHeaderKnown s = .next { s with returned := .flag s.fb.expectedLen.isSome, events := [] } := rfl

/-- An append counts its bit within the byte it is in (41_framebuffer.md R127). -/
theorem appended_bitCursor_range {fb : FrameBuffer} (h : fb.bitCursor ≤ 8) (crc : Bool) (bit : Byte) :
    1 ≤ (appended crc bit fb).bitCursor ∧ (appended crc bit fb).bitCursor ≤ 8 := by
  rw [appended_bitCursor]
  split <;> omega

/-- The second byte's first bit latches the length (41_framebuffer.md R124). -/
theorem appended_expectedLen_of_second_byte {fb : FrameBuffer} (h8 : fb.bitCursor = 8) (h0 : fb.byteCursor = 0)
    (hn : fb.expectedLen = none) (crc : Bool) (bit : Byte) :
    (appended crc bit fb).expectedLen = some (declaredLen crc (fb.bytes.read 0)) := by
  rw [appended_expectedLen_before, if_pos ⟨hn, .inl ⟨h8, h0⟩⟩, declaredLen]

/-- A known length stays (41_framebuffer.md R124). -/
theorem appended_expectedLen_of_known {fb : FrameBuffer} {n : Nat} (h : fb.expectedLen = some n) (crc : Bool)
    (bit : Byte) : (appended crc bit fb).expectedLen = some n := by
  rw [appended_expectedLen_before, if_neg (by simp [h]), h]

/-- The range of a declared length with CRC enabled (41_framebuffer.md R125). -/
theorem declaredLen_range_crc (header : Byte) : 2 ≤ declaredLen true header ∧ declaredLen true header ≤ 257 := by
  have := header.isLt
  simp only [declaredLen, if_true]
  omega

/-- The range of a declared length without CRC (41_framebuffer.md R125). -/
theorem declaredLen_range_no_crc (header : Byte) : 1 ≤ declaredLen false header ∧ declaredLen false header ≤ 256 := by
  have := header.isLt
  simp only [declaredLen, Bool.false_eq_true, if_false]
  omega

end Sys2Proof.Machine

/-! ### A sequence of appends from `FB.RESET` -/

namespace Sys2Proof.Machine

/-- The buffer that `FB.RESET` and an append of each of these bits leave (41_framebuffer.md R131). -/
def filledBuffer (crc : Bool) (bits : List Bool) : FrameBuffer :=
  bits.foldl (fun fb b => appended crc (bitByte b) fb) FrameBuffer.cleared

@[simp] theorem filledBuffer_nil (crc : Bool) : filledBuffer crc [] = FrameBuffer.cleared := rfl

theorem filledBuffer_concat (crc : Bool) (bits : List Bool) (b : Bool) :
    filledBuffer crc (bits ++ [b]) = appended crc (bitByte b) (filledBuffer crc bits) := by
  simp [filledBuffer]

/-- The appends fill the buffer MSB-first, up to its last bit (41_framebuffer.md R131). -/
theorem filledBuffer_spells (crc : Bool) {bits : List Bool} (hsome : 1 ≤ bits.length) (hfits : bits.length ≤ 16384) :
    (filledBuffer crc bits).Spells crc bits := by
  induction bits using List.reverseRecOn with
  | nil => exact absurd hsome (by decide)
  | append_singleton bits b ih =>
    rw [List.length_append, List.length_singleton] at hfits
    rw [filledBuffer_concat]
    rcases Nat.eq_zero_or_pos bits.length with h0 | hpos
    · obtain rfl := List.eq_nil_of_length_eq_zero h0
      exact FrameBuffer.spells_singleton crc b
    · exact (ih hpos (by omega)).concat (by omega) b

theorem filledBuffer_byteCursor (crc : Bool) {bits : List Bool} (hfits : bits.length ≤ 16384) :
    (filledBuffer crc bits).byteCursor = (bits.length - 1) / 8 := by
  cases bits with
  | nil => rfl
  | cons b bits => exact (filledBuffer_spells crc (Nat.le_add_left 1 _) hfits).byte_cursor

/-- The length is known from the ninth bit on (41_framebuffer.md R131). -/
theorem filledBuffer_expectedLen_isSome (crc : Bool) {bits : List Bool} (hfits : bits.length ≤ 16384) :
    (filledBuffer crc bits).expectedLen.isSome = decide (9 ≤ bits.length) := by
  cases bits with
  | nil => rfl
  | cons b bits =>
    rw [(filledBuffer_spells crc (Nat.le_add_left 1 _) hfits).expected_len]
    split
    case isTrue h => exact (decide_eq_true h).symm
    case isFalse h => exact (decide_eq_false h).symm

/-- There is room for one more bit until all 16384 are held. -/
theorem filledBuffer_room (crc : Bool) {bits : List Bool} (hroom : bits.length < 16384) :
    (advanceByte (filledBuffer crc bits)).byteCursor ≤ 2047 := by
  cases bits with
  | nil => exact Nat.zero_le _
  | cons b bits =>
    rw [(filledBuffer_spells crc (Nat.le_add_left 1 _) hroom.le).advanceByte_byteCursor_eq]
    omega

/-- A sequence of operations that begins with `FB.RESET` and appends goes on from the buffer they fill
(41_framebuffer.md R131). -/
theorem runInstrs_fbReset_appends {bits : List Bool} (hfits : bits.length ≤ 16384) (is : List Instr) (s : State) :
    runInstrs ((.fbReset :: bits.map fun b => .fbAppendBit (bitByte b)) ++ is) s =
      runInstrs is (s.withBuffer (filledBuffer (crcEnabled s.cfg) bits)) := by
  induction bits using List.reverseRecOn generalizing is with
  | nil => exact runInstrs_cons_of (exec_fbReset s)
  | append_singleton bits b ih =>
    rw [List.length_append, List.length_singleton] at hfits
    have hexec := exec_fbAppendBit_of_room
      (s := s.withBuffer (filledBuffer (crcEnabled s.cfg) bits)) (bitByte_is_bit b) (filledBuffer_room _ hfits)
    rw [List.map_append, ← List.cons_append, List.append_assoc, ih (by omega)]
    simpa [filledBuffer_concat] using runInstrs_cons_of hexec

/-- A sequence that is `FB.RESET`, appends and one more operation ends in what that operation leaves, where it leaves no
mark. -/
theorem runInstrs_fbReset_appends_concat {bits : List Bool} (hfits : bits.length ≤ 16384) {i : Instr} {s t : State}
    (hi : exec i (s.withBuffer (filledBuffer (crcEnabled s.cfg) bits)) = .next t) (ht : t.fault = none) :
    runInstrs ((.fbReset :: bits.map fun b => .fbAppendBit (bitByte b)) ++ [i]) s = .next t := by
  rw [runInstrs_fbReset_appends hfits, runInstrs_cons_of hi, runInstrs_nil_of_unmarked ht]

end Sys2Proof.Machine

namespace Sys2Proof

open Machine

/-- Settles O20, by induction over the bits, the last one taken off: each append adds its bit to what the buffer spells. -/
theorem appendsFillBytesMsbFirst : Obligations.AppendsFillBytesMsbFirst := by
  intro bits s hf hsome hfits
  have hspells := filledBuffer_spells (crcEnabled s.cfg) hsome hfits
  refine ⟨s.withBuffer (filledBuffer (crcEnabled s.cfg) bits), ?run, hspells.byte_cursor, hspells.bit_cursor, ?known,
    fun j _ => hspells.read_toNat j, fun j hj => ?above, rfl, rfl, rfl, rfl, rfl⟩
  case run =>
    rw [← List.append_nil (_ :: _), runInstrs_fbReset_appends hfits]
    exact runInstrs_nil_of_unmarked hf
  case known =>
    rw [State.withBuffer_fb, filledBuffer_expectedLen_isSome _ hfits, decide_eq_true_iff]
  case above =>
    rw [State.withBuffer_fb, hspells.byte_cursor] at hj
    refine BitVec.eq_of_toNat_eq ((hspells.read_toNat j).trans ?_)
    rw [bitGroup_eq_nil (by omega)]
    rfl

/-- Settles O17: there is room, and each field is what the four steps make of it. -/
theorem appendBitRunsItsFourSteps : Obligations.AppendBitRunsItsFourSteps := by
  intro bit s hb hwf hbit hbyte hroom
  obtain ⟨hlow, hhigh⟩ := appended_bitCursor_range hbit (crcEnabled s.cfg) bit
  exact ⟨_, exec_fbAppendBit_of_room hb (advanceByte_room hbyte hroom), appended_byteCursor _ _ _,
    appended_bitCursor _ _ _, hlow, hhigh, appended_expectedLen_before _ _ _, appended_read_before hwf _ _,
    appended_wf hwf _ _, rfl, rfl, rfl, rfl, rfl, rfl, rfl, rfl⟩

/-- Settles O18: an append that goes on either starts the second byte and latches, or leaves a known length. -/
theorem headerLatchIsExactAndOnce : Obligations.HeaderLatchIsExactAndOnce := by
  intro bit s t h
  obtain rfl := exec_fbAppendBit_eq_next h
  refine ⟨fun _ h8 h0 hn => ⟨_, appended_expectedLen_of_second_byte h8 h0 hn _ _, rfl, fun hcrc => ?_, fun hcrc => ?_⟩,
    fun n hn => appended_expectedLen_of_known hn _ _⟩
  · rw [hcrc]; exact declaredLen_range_crc _
  · rw [hcrc]; exact declaredLen_range_no_crc _

/-- Settles O19: a byte that holds fewer than eight bits has a 0 at the top, which is all that the shift loses. -/
theorem shiftedInBitDropsNothing : Obligations.ShiftedInBitDropsNothing := by
  intro b s hwf hpos hlt hbyte hpart
  have h8 : s.fb.bitCursor ≠ 8 := by omega
  have hbyteCursor := appended_byteCursor (crcEnabled s.cfg) (bitByte b) s.fb
  have hbitCursor := appended_bitCursor (crcEnabled s.cfg) (bitByte b) s.fb
  rw [if_neg h8] at hbyteCursor hbitCursor
  have hread : ((appended (crcEnabled s.cfg) (bitByte b) s.fb).bytes.read s.fb.byteCursor).toNat =
      2 * (s.fb.bytes.read s.fb.byteCursor).toNat + b.toNat := by
    rw [appended_read_before hwf, if_pos hbyteCursor.symm, if_neg (by omega),
      shiftIn_toNat hlt hpart (bitByte_is_bit b), bitByte_toNat]
  refine ⟨_, exec_fbAppendBit_of_room (bitByte_is_bit b) (advanceByte_room hbyte (absurd · h8)), hbyteCursor, hbitCursor,
    ?_, ?_⟩
  · rw [State.withBuffer_fb, hbyteCursor, hread]
  · have := b.toNat_lt
    rw [State.withBuffer_fb, hbyteCursor, hread, hbitCursor, Nat.pow_succ]
    omega

/-- Settles O21: the queries read two fields, and the appends fix both for every number of bits, 0 included. -/
theorem bufferQueriesReturnCursorAndHeaderKnown : Obligations.BufferQueriesReturnCursorAndHeaderKnown := by
  refine ⟨fun s => ⟨exec_fbCurrentLength s, exec_fbIsHeaderKnown s⟩, fun bits s hf hfits => ⟨?length, ?known⟩⟩
  case length =>
    refine ⟨_, runInstrs_fbReset_appends_concat hfits (exec_fbCurrentLength _) hf, ?_⟩
    rw [State.withBuffer_fb, filledBuffer_byteCursor _ hfits]
  case known =>
    refine ⟨_, runInstrs_fbReset_appends_concat hfits (exec_fbIsHeaderKnown _) hf, ?_⟩
    rw [State.withBuffer_fb, filledBuffer_expectedLen_isSome _ hfits]

/-- Settles O16: `FB.RESET` leaves the cleared buffer, whatever the buffer was. -/
theorem fbResetClearsTheBuffer : Obligations.FbResetClearsTheBuffer := fun s =>
  ⟨s.withBuffer FrameBuffer.cleared, exec_fbReset s, Memory.read_nil, rfl, rfl, rfl, rfl, rfl, rfl, rfl, rfl, rfl, rfl,
    rfl, rfl, rfl, rfl, exec_fbReset _⟩

end Sys2Proof

/-! ### The flush by its verdict -/

namespace Sys2Proof.Machine

section
variable {cfg : Byte} {fb : FrameBuffer}

/-- A rejected frame is traced when verbose, and not delivered (42_assembler.md R168). -/
theorem flushEvents_of_rejected (h : frameAccepted cfg fb = false) :
    flushEvents cfg fb = if verbose cfg then [.trace (fb.bytes.span 0 (fb.byteCursor + 1))] else [] := by
  rw [flushEvents, h]
  exact List.append_nil _

theorem flushCount_of_rejected (h : frameAccepted cfg fb = false) : flushCount cfg fb = 0 := by
  rw [flushCount, h]
  rfl

/-- An accepted frame is traced when verbose, and then delivered (42_assembler.md R166, R171). -/
theorem flushEvents_of_accepted (h : frameAccepted cfg fb = true) :
    flushEvents cfg fb =
      (if verbose cfg then [.trace (fb.bytes.span 0 (fb.byteCursor + 1))] else []) ++
        [.deliver (framePayload cfg fb)] := by
  rw [flushEvents, if_pos h]

theorem flushCount_of_accepted (h : frameAccepted cfg fb = true) : flushCount cfg fb = payloadEnd cfg fb := by
  rw [flushCount, if_pos h]

end

theorem frameAccepted_of_crc_disabled {cfg : Byte} (h : crcEnabled cfg = false) (fb : FrameBuffer) : frameAccepted cfg fb = true :=
  (frameAccepted_iff cfg fb).mpr (.inl h)

theorem payloadEnd_of_crc_disabled {cfg : Byte} (h : crcEnabled cfg = false) (fb : FrameBuffer) :
    payloadEnd cfg fb = fb.byteCursor := by
  rw [payloadEnd_eq, h]
  rfl

/-- With CRC disabled every flush delivers all but the header (42_assembler.md R170). -/
theorem flushEvents_of_crc_disabled {cfg : Byte} (h : crcEnabled cfg = false) (fb : FrameBuffer) :
    flushEvents cfg fb =
      (if verbose cfg then [.trace (fb.bytes.span 0 (fb.byteCursor + 1))] else []) ++
        [.deliver (fb.bytes.span 1 fb.byteCursor)] := by
  rw [flushEvents_of_accepted (frameAccepted_of_crc_disabled h fb), framePayload, payloadEnd_of_crc_disabled h]

theorem flushCount_of_crc_disabled {cfg : Byte} (h : crcEnabled cfg = false) (fb : FrameBuffer) :
    flushCount cfg fb = fb.byteCursor := by
  rw [flushCount_of_accepted (frameAccepted_of_crc_disabled h fb), payloadEnd_of_crc_disabled h]

end Sys2Proof.Machine

/-! ### The units of a frame on the wire -/

namespace Sys2Proof.Machine

@[simp] theorem unitV_dataUnit (b : Bool) : unitV (dataUnit b) = b := by
  revert b; decide

@[simp] theorem unitV_syncUnit (b : Bool) : unitV (syncUnit b) = b := by
  revert b; decide

@[simp] theorem unitS_syncUnit (b : Bool) : unitS (syncUnit b) = true := by
  revert b; decide

theorem map_unitV_dataUnits (bits : List Bool) : (bits.map dataUnit).map unitV = bits := by
  simp [Function.comp_def]

theorem map_unitV_byteUnits (x : Byte) : (byteUnits x).map unitV = bitsMsbFirst x :=
  map_unitV_dataUnits _

theorem map_unitV_syncByteUnits (x : Byte) : (syncByteUnits x).map unitV = bitsMsbFirst x := by
  rw [syncByteUnits, List.map_cons, map_unitV_dataUnits, unitV_syncUnit]
  rfl

/-- The units of a frame spell its header and payload (30_encoding.md R83). -/
theorem map_unitV_frameUnits (header : Byte) (payload : List Byte) :
    (frameUnits header payload).map unitV = (header :: payload).flatMap bitsMsbFirst := by
  rw [frameUnits, List.map_append, map_unitV_syncByteUnits, List.map_flatMap, List.flatMap_cons]
  simp only [map_unitV_byteUnits]

theorem map_unitV_frameUnitsX (header : Byte) (payload : List Byte) (crc : Byte) :
    (frameUnitsX header payload crc).map unitV = (header :: payload ++ [crc]).flatMap bitsMsbFirst := by
  rw [frameUnitsX, List.map_append, map_unitV_frameUnits, map_unitV_byteUnits, List.flatMap_append,
    List.flatMap_singleton]

/-- Units that begin with those of an `SBYTE` begin with a sync unit (30_encoding.md R83). -/
theorem head_syncByteUnits_append (x : Byte) (us : List Byte) :
    (syncByteUnits x ++ us).head?.map unitS = some true := by
  rw [syncByteUnits, List.cons_append, List.head?_cons, Option.map_some, unitS_syncUnit]

theorem head_frameUnits (header : Byte) (payload : List Byte) :
    (frameUnits header payload).head?.map unitS = some true :=
  head_syncByteUnits_append _ _

theorem head_frameUnitsX (header : Byte) (payload : List Byte) (crc : Byte) :
    (frameUnitsX header payload crc).head?.map unitS = some true := by
  rw [frameUnitsX, frameUnits, List.append_assoc]
  exact head_syncByteUnits_append _ _

end Sys2Proof.Machine

namespace Sys2Proof

open Machine

/-- Settles O48: the units are one whole frame, and its flush rejects a byte other than the CRC. -/
theorem frameWithWrongCrcIsRejected : Obligations.FrameWithWrongCrcIsRejected := by
  intro payload crc s hlen hf hm hcrc header hwrong
  have hbits := map_unitV_frameUnitsX header payload crc
  obtain ⟨hlength, t, hrun, hdone⟩ :=
    runBatch_frame_with_crc hf hm hcrc hlen hbits (head_frameUnitsX header payload crc)
  obtain ⟨hunmarked, hidle, hspells, hreturned, hsent⟩ := hdone
  obtain ⟨hpos, hcfg, -⟩ := runBatch_frame hrun
  obtain ⟨hevents, hcount⟩ := (hbits ▸ hspells).flush_of_frame hcrc
  rw [if_neg hwrong.symm] at hevents hcount
  rw [hcount] at hrun hreturned
  rw [hevents, List.append_nil] at hsent
  exact ⟨t, hrun, hidle, hreturned, hsent, hcfg, hunmarked, hlength ▸ hpos⟩

end Sys2Proof

/-! ### Frames without CRC -/

namespace Sys2Proof.Machine

/-- The first byte of a stream is its group 0, and the groups of the rest follow. -/
theorem bitGroup_byte_append_zero (x : Byte) (bits : List Bool) : bitGroup (bitsMsbFirst x ++ bits) 0 = bitsMsbFirst x := by
  rw [bitGroup, Nat.mul_zero, List.drop_zero]
  exact List.take_left' (bitsMsbFirst_length x)

theorem bitGroup_byte_append_succ (x : Byte) (bits : List Bool) (j : Nat) :
    bitGroup (bitsMsbFirst x ++ bits) (j + 1) = bitGroup bits j := by
  have hdrop : 8 * (j + 1) = (bitsMsbFirst x).length + 8 * j := by rw [bitsMsbFirst_length]; omega
  rw [bitGroup, bitGroup, hdrop, List.drop_length_add_append]

/-- A stream that begins with a header byte declares that header's length from its eighth bit on (41_framebuffer.md R125). -/
theorem spelledLen_of_header_prefix (crc : Bool) {header : Byte} {rest p : List Bool}
    (hp : p <+: bitsMsbFirst header ++ rest) (h8 : 8 ≤ p.length) : spelledLen crc p = declaredLen crc header := by
  have hheader : bitsMsbFirst header <+: p :=
    List.prefix_of_prefix_length_le (List.prefix_append _ _) hp (by rwa [bitsMsbFirst_length])
  obtain ⟨bits, rfl⟩ := hheader
  rw [spelledLen, bitGroup_byte_append_zero, bitsValue_bitsMsbFirst, declaredLen]

/-- With CRC disabled a frame with a payload completes with its last bit and not before (42_assembler.md R160, R174). -/
theorem completesFrame_without_crc_prefix_iff {payload : List Byte} (hsome : 1 ≤ payload.length)
    (hlen : payload.length ≤ 255) {p : List Bool}
    (hp : p <+: (BitVec.ofNat 8 payload.length :: payload).flatMap bitsMsbFirst) :
    CompletesFrame false p ↔ p.length = 8 * (payload.length + 1) := by
  have hle := hp.length_le
  rw [flatMap_bitsMsbFirst_length, List.length_cons] at hle
  have hdeclared : declaredLen false (BitVec.ofNat 8 payload.length) = payload.length + 1 := by
    rw [declaredLen, BitVec.toNat_ofNat, Nat.mod_eq_of_lt (by omega)]
    rfl
  have hspelled : 8 ≤ p.length → spelledLen false p = payload.length + 1 := fun h8 =>
    (spelledLen_of_header_prefix false hp h8).trans hdeclared
  constructor
  · rintro (⟨h8, h⟩ | h)
    · rwa [hspelled (by omega)] at h
    · omega
  · intro h
    refine .inl ⟨by omega, ?_⟩
    rwa [hspelled (by omega)]

/-- With CRC disabled the flush of a buffer that spells whole bytes delivers all but the first (42_assembler.md R166, R170). -/
theorem FrameBuffer.Spells.flush_without_crc {cfg : Byte} (hcrc : crcEnabled cfg = false) {header : Byte}
    {payload : List Byte} {fb : FrameBuffer}
    (h : fb.Spells (crcEnabled cfg) ((header :: payload).flatMap bitsMsbFirst)) :
    flushEvents cfg fb = (if verbose cfg then [.trace (header :: payload)] else []) ++ [.deliver payload] ∧
    flushCount cfg fb = payload.length := by
  have hreads := h.read_of_bytes
  have hbyte : fb.byteCursor = payload.length := by simpa using h.cursors_of_bytes.2
  have hframe : fb.bytes.span 0 (payload.length + 1) = header :: payload := by
    rw [Memory.span_of_reads hreads (by simp)]; simp
  have hpayload : fb.bytes.span 1 payload.length = payload := by
    rw [Memory.span_of_reads hreads (by simp; omega)]; simp
  rw [flushEvents_of_crc_disabled hcrc, flushCount_of_crc_disabled hcrc, hbyte, hframe, hpayload]
  exact ⟨rfl, rfl⟩

/-- With CRC disabled, from `Idle`, the units of a frame with a payload are one accepted frame (42_assembler.md R174). -/
theorem runBatch_frame_without_crc {s : State} (hf : s.fault = none) (hm : s.mode = .idle)
    (hcrc : crcEnabled s.cfg = false) {payload : List Byte} (hsome : 1 ≤ payload.length) (hlen : payload.length ≤ 255) :
    ∃ t, runBatch (frameUnits (BitVec.ofNat 8 payload.length) payload) s = .next (t, payload.length) ∧
      t.fault = none ∧ t.mode = .idle ∧ t.cfg = s.cfg ∧
      t.sent = s.sent ++ ((if verbose s.cfg then [.trace (BitVec.ofNat 8 payload.length :: payload)] else []) ++
        [.deliver payload]) := by
  have hbits := map_unitV_frameUnits (BitVec.ofNat 8 payload.length) payload
  have hcompletes : ∀ p, p <+: (frameUnits (BitVec.ofNat 8 payload.length) payload).map unitV →
      (CompletesFrame (crcEnabled s.cfg) p ↔ p.length = 8 * (payload.length + 1)) := fun p hp => by
    rw [hcrc]; exact completesFrame_without_crc_prefix_iff hsome hlen (hbits ▸ hp)
  have hlength : (frameUnits (BitVec.ofNat 8 payload.length) payload).length = 8 * (payload.length + 1) := by
    rw [← List.length_map (f := unitV), hbits, flatMap_bitsMsbFirst_length, List.length_cons]
  obtain ⟨t, hrun, hunmarked, hidle, hspells, -, hsent⟩ := runBatch_whole_frame hf hm (head_frameUnits _ _)
    ((hcompletes _ (List.prefix_refl _)).mpr (List.length_map _ |>.trans hlength))
    fun p hp hlt => by rw [hcompletes p hp]; omega
  obtain ⟨hevents, hcount⟩ := (hbits ▸ hspells).flush_without_crc hcrc
  obtain ⟨-, hcfg, -⟩ := runBatch_frame hrun
  exact ⟨t, hcount ▸ hrun, hunmarked, hidle, hcfg, hevents ▸ hsent⟩

end Sys2Proof.Machine

namespace Sys2Proof

open Machine

/-- Settles O49: the first frame leaves the block `Idle` with the same configuration, from where the second starts. -/
theorem backToBackFramesWithoutCrcAreDelivered : Obligations.BackToBackFramesWithoutCrcAreDelivered := by
  intro p q s hp hp' hq hq' hf hm hcrc header traced
  obtain ⟨t, hrun, hunmarked, hidle, hcfg, hsent⟩ := runBatch_frame_without_crc hf hm hcrc hp hp'
  obtain ⟨r, hrun', hunmarked', hidle', -, hsent'⟩ :=
    runBatch_frame_without_crc hunmarked hidle (hcfg ▸ hcrc) hq hq'
  refine ⟨r, runBatch_append_of hrun hrun', hidle', hunmarked', ?_⟩
  rw [hsent', hsent, hcfg, ← List.append_assoc, ← List.append_assoc]

end Sys2Proof

/-! ### The frame that runs to the limit -/

namespace Sys2Proof.Machine

/-- With CRC disabled a frame with header 0 declares one byte, which is over before the length is known: it completes at
byte 2047 only (42_assembler.md R175; 90_conflicts.md C5). -/
theorem completesFrame_header_zero_iff {rest p : List Bool} (hp : p <+: bitsMsbFirst 0x00#8 ++ rest) :
    CompletesFrame false p ↔ 16376 < p.length := by
  refine ⟨?_, .inr⟩
  rintro (⟨h8, h⟩ | h)
  · rw [spelledLen_of_header_prefix false hp h8.le, show declaredLen false 0x00#8 = 1 from rfl] at h
    omega
  · exact h

/-- A buffer that spells a stream holds its first byte and then the groups of the rest (41_framebuffer.md R131). -/
theorem FrameBuffer.Spells.read_zero {crc : Bool} {x : Byte} {bits : List Bool} {fb : FrameBuffer}
    (h : fb.Spells crc (bitsMsbFirst x ++ bits)) : fb.bytes.read 0 = x := by
  apply BitVec.eq_of_toNat_eq
  rw [h.read_toNat, bitGroup_byte_append_zero, bitsValue_bitsMsbFirst]

theorem FrameBuffer.Spells.read_succ_toNat {crc : Bool} {x : Byte} {bits : List Bool} {fb : FrameBuffer}
    (h : fb.Spells crc (bitsMsbFirst x ++ bits)) (j : Nat) :
    (fb.bytes.read (j + 1)).toNat = bitsValue (bitGroup bits j) := by
  rw [h.read_toNat, bitGroup_byte_append_succ]

/-- A last bit that begins a byte is that byte so far (41_framebuffer.md R126). -/
theorem FrameBuffer.Spells.read_of_first_bit {crc : Bool} {bits : List Bool} {b : Bool} {fb : FrameBuffer}
    (h : fb.Spells crc (bits ++ [b])) {j : Nat} (hj : bits.length = 8 * j) : fb.bytes.read j = bitByte b := by
  apply BitVec.eq_of_toNat_eq
  rw [h.read_toNat, bitGroup_concat, if_pos (by omega), bitGroup_eq_nil hj.le, bitsValue_concat, bitsValue_nil,
    bitByte_toNat]
  omega

/-- Where the 16377th bit stands, and what its frame declares (42_assembler.md R176). -/
theorem FrameBuffer.Spells.at_limit {bits : List Bool} {fb : FrameBuffer} (h : fb.Spells false (bitsMsbFirst 0x00#8 ++ bits))
    (hlen : bits.length = 16369) : fb.byteCursor = 2047 ∧ fb.bitCursor = 1 ∧ fb.expectedLen = some 1 := by
  have hlength : (bitsMsbFirst 0x00#8 ++ bits).length = 16377 := by
    rw [List.length_append, bitsMsbFirst_length, hlen]
  refine ⟨by rw [h.byte_cursor, hlength], by rw [h.bit_cursor, hlength], ?_⟩
  rw [h.expected_len, if_pos (by omega), spelledLen_of_header_prefix false (List.prefix_refl _) (by omega)]
  rfl

theorem Memory.span_getElem (m : Memory) (a n j : Nat) (h : j < (m.span a n).length) :
    (m.span a n)[j] = m.read (a + j) := by
  simp [Memory.span]

theorem Memory.span_getLast? (m : Memory) (a n : Nat) : (m.span a (n + 1)).getLast? = some (m.read (a + n)) := by
  rw [Memory.span_concat, List.getLast?_concat]

end Sys2Proof.Machine

namespace Sys2Proof

open Machine

/-- Settles O50: the declared length passes while it is not yet known, so that only the first bit of byte 2047 completes the
frame. -/
theorem headerZeroWithoutCrcRunsToTheLimit : Obligations.HeaderZeroWithoutCrcRunsToTheLimit := by
  intro us u s hlen hf hm hcrc
  have hbits : (syncByteUnits 0x00#8 ++ us).map unitV = bitsMsbFirst 0x00#8 ++ us.map unitV := by
    rw [List.map_append, map_unitV_syncByteUnits]
  have hlength : (bitsMsbFirst 0x00#8 ++ us.map unitV).length = 16376 := by
    rw [List.length_append, bitsMsbFirst_length, List.length_map, hlen]
  have hall : bitsMsbFirst 0x00#8 ++ us.map unitV ++ [unitV u] = bitsMsbFirst 0x00#8 ++ (us ++ [u]).map unitV := by
    rw [List.map_append, List.append_assoc]; rfl
  obtain ⟨t, hrun, hreceiving, hsent, hcfg⟩ :=
    runBatch_opens_frame hf hm (head_syncByteUnits_append 0x00#8 us) fun p hp => by
      have := (hbits ▸ hp).length_le
      rw [hcrc, completesFrame_header_zero_iff (hbits ▸ hp)]
      omega
  rw [hbits] at hreceiving
  obtain ⟨t', hstep, hdone⟩ := hreceiving.exec_unit_completes (u := u) (.inr (by
    rw [List.length_append, hlength]; exact Nat.lt_succ_self _))
  obtain ⟨-, hidle, hspells, hreturned, hsent'⟩ := hdone.from_earlier hcfg hsent
  rw [hcrc] at hspells
  have hlast := hspells.read_of_first_bit (j := 2047) hlength
  rw [hall] at hspells
  obtain ⟨hbyte, hbit, hexpected⟩ := hspells.at_limit (by rw [List.length_map, List.length_append, hlen]; rfl)
  rw [flushCount_of_crc_disabled hcrc, hbyte] at hreturned
  rw [flushEvents_of_crc_disabled hcrc, hbyte, Memory.span_succ, hspells.read_zero, ← List.append_assoc] at hsent'
  refine ⟨t, t', t'.fb.bytes.span 1 2047, hrun, hreceiving.assembling, hsent, hstep, hidle, hreturned, hbyte, hbit,
    hexpected, hsent', Memory.span_length _ _ _, ?last, fun j hj => ?bytes⟩
  case last => rw [Memory.span_getLast?, hlast, unitBit_eq_bitByte]
  case bytes =>
    rw [Memory.span_getElem, Nat.add_comm, hspells.read_succ_toNat]
    rfl

end Sys2Proof

/-! ### The assembler's operations, each as the machine runs it -/

namespace Sys2Proof.Machine

/-- A command that carries a data bit runs `ACCEPT` on it (42_assembler.md R152 to R155). -/
theorem exec_of_carriesBit {i : Instr} {b : Byte} (h : carriesBit i b) :
    (b = 0#8 ∨ b = 1#8) ∧ ∃ sync, ∀ s, exec i s = accept b sync s := by
  obtain ⟨⟨r, rfl | rfl⟩, rfl⟩ | ⟨⟨r, rfl | rfl⟩, rfl⟩ := h
  · exact ⟨.inl rfl, false, fun _ => rfl⟩
  · exact ⟨.inl rfl, true, fun _ => rfl⟩
  · exact ⟨.inr rfl, false, fun _ => rfl⟩
  · exact ⟨.inr rfl, true, fun _ => rfl⟩

/-- In `Assembling` the sync flag has no effect of its own (42_assembler.md R157). -/
theorem accept_assembling_sync {s : State} (hm : s.mode = .assembling) (bit : Byte) (sync sync' : Bool) :
    accept bit sync s = accept bit sync' s := by
  cases hf : s.fault with
  | none => rw [accept_of_assembling hf hm, accept_of_assembling hf hm]
  | some m => rw [accept_of_marked hf, accept_of_marked hf]

/-- In `Assembling` a unit goes on while the buffer has room (42_assembler.md R151). -/
theorem accept_assembling_goes_on {s : State} (hf : s.fault = none) (hm : s.mode = .assembling) {bit : Byte}
    (hb : bit = 0#8 ∨ bit = 1#8) (sync : Bool) (hroom : (advanceByte s.fb).byteCursor ≤ 2047) :
    ∃ t, accept bit sync s = .next t := by
  cases hc : (appended (crcEnabled s.cfg) bit s.fb).completes with
  | false => exact ⟨_, accept_assembling_open hf hm hb sync hroom hc⟩
  | true => exact ⟨_, accept_assembling_complete hf hm hb sync hroom hc⟩

/-- In `Assembling` a unit hands out what one flush does where the frame completes, and nothing otherwise
(42_assembler.md R163, R164). -/
theorem accept_assembling_outputs {bit : Byte} (hb : bit = 0#8 ∨ bit = 1#8) {sync : Bool} {s t : State}
    (h : accept bit sync s = .next t) (hm : s.mode = .assembling) :
    (t.fb.completes = false → t.returned = .count 0 ∧ t.events = []) ∧
    (t.fb.completes = true → t.returned = .count (flushCount s.cfg t.fb) ∧ t.events = flushEvents s.cfg t.fb) := by
  obtain ⟨-, ⟨hi, -⟩ | ⟨hi, -⟩ | ⟨-, hc, rfl⟩ | ⟨-, hc, rfl⟩⟩ := accept_eq_next hb h
  · exact nomatch hm.symm.trans hi
  · exact nomatch hm.symm.trans hi
  · exact ⟨fun _ => ⟨rfl, rfl⟩, fun hc' => nomatch hc.symm.trans hc'⟩
  · exact ⟨(fun hc' => nomatch hc.symm.trans hc'), fun _ => ⟨rfl, rfl⟩⟩

/-- `FA.FLUSH` as the machine runs it inside the buffer (42_assembler.md R165). -/
theorem exec_faFlush_of_inside {s : State} (h : s.fb.byteCursor ≤ 2047) :
    exec .faFlush s =
      .next { s with returned := .count (flushCount s.cfg s.fb), events := flushEvents s.cfg s.fb,
                     sent := s.sent ++ flushEvents s.cfg s.fb } :=
  flush_of_inside (s := s.begin) (Nat.lt_succ_of_le h)

/-- `FA.FLUSH` as the machine runs it beyond the buffer (20_memory.md R50; log entry 11). -/
theorem exec_faFlush_of_outside {s : State} (h : 2047 < s.fb.byteCursor) :
    exec .faFlush s = .fault (.noSuchByte s.fb.byteCursor) :=
  flush_of_outside (s := s.begin) h

/-- `FA.EVAL_COMPLETION` as the machine runs it while nothing completes (42_assembler.md R164). -/
theorem exec_faEvalCompletion_of_open {s : State} (h : s.fb.completes = false) :
    exec .faEvalCompletion s = .next { s with returned := .count 0, events := [] } :=
  evalCompletion_of_open (s := s.begin) h

/-- `FA.EVAL_COMPLETION` as the machine runs it on a completion (42_assembler.md R159, R163). -/
theorem exec_faEvalCompletion_of_complete {s : State} (h : s.fb.completes = true) (hin : s.fb.byteCursor ≤ 2047) :
    exec .faEvalCompletion s =
      .next { s with mode := .idle, returned := .count (flushCount s.cfg s.fb), events := flushEvents s.cfg s.fb,
                     sent := s.sent ++ flushEvents s.cfg s.fb } :=
  evalCompletion_of_complete (s := s.begin) h (Nat.lt_succ_of_le hin)

/-- A flush counts 0 or the whole payload (42_assembler.md R168, R172). -/
theorem flushCount_eq_zero_or (cfg : Byte) (fb : FrameBuffer) :
    flushCount cfg fb = 0 ∨ flushCount cfg fb = payloadEnd cfg fb := by
  cases h : frameAccepted cfg fb with
  | false => exact .inl (flushCount_of_rejected h)
  | true => exact .inr (flushCount_of_accepted h)

/-- A frame is accepted exactly where its CRC check does not fail (42_assembler.md R167). -/
theorem frameAccepted_iff_check_passes (cfg : Byte) (fb : FrameBuffer) :
    frameAccepted cfg fb = true ↔
      ¬ (crcEnabled cfg = true ∧ crc8Run (fb.bytes.span 0 fb.byteCursor) ≠ fb.bytes.read fb.byteCursor) := by
  rw [← frameAccepted_eq_false_iff, Bool.not_eq_false]

end Sys2Proof.Machine

namespace Sys2Proof

open Machine

/-- Settles O9: there is room, and each field is what the append and the completion test make of it. -/
theorem assemblingUnitAppendsItsBit : Obligations.AssemblingUnitAppendsItsBit := by
  intro i b s hi hf hm hwf hbyte hlast
  obtain ⟨hb, sync, hexec⟩ := exec_of_carriesBit hi
  obtain ⟨t, ht⟩ := accept_assembling_goes_on hf hm hb sync (advanceByte_room hbyte hlast)
  obtain ⟨hcfg, hpos, hfault, hinputs⟩ := accept_frame hb ht
  obtain ⟨hfb, hmode⟩ := accept_assembling_eq_next hb ht hm
  refine ⟨t, (hexec s).trans ht, ?byteCursor, ?bitCursor, ?expectedLen, ?bytes, ?wf, hcfg, hpos, hfault.trans hf, hinputs,
    hmode.trans (if_congr t.fb.completes_iff_length rfl rfl)⟩
  case byteCursor => rw [hfb, appended_byteCursor]
  case bitCursor => rw [hfb, appended_bitCursor]; split <;> rfl
  case expectedLen => rw [hfb, appended_expectedLen_before]
  case bytes => rw [hfb]; exact appended_read_before hwf _ _
  case wf => rw [hfb]; exact appended_wf hwf _ _

/-- Settles O10: on a completion the step hands out what one flush does, by the verdict of its CRC check. -/
theorem assemblingUnitCompletesTheFrame : Obligations.AssemblingUnitCompletesTheFrame := by
  intro i b s hi hf hm hbyte hlast
  obtain ⟨hb, sync, hexec⟩ := exec_of_carriesBit hi
  obtain ⟨t, ht⟩ := accept_assembling_goes_on hf hm hb sync (advanceByte_room hbyte hlast)
  obtain ⟨-, hmode⟩ := accept_assembling_eq_next hb ht hm
  obtain ⟨hopen, hcomplete⟩ := accept_assembling_outputs hb ht hm
  refine ⟨t, (hexec s).trans ht, (accept_outputs hb ht).1, fun hnot => ?_, fun hdone => ?_⟩
  · have hc : t.fb.completes = false := by
      rw [← Bool.not_eq_true, t.fb.completes_iff]; exact hnot
    rw [hc] at hmode
    exact ⟨hmode, hopen hc⟩
  · have hc : t.fb.completes = true := t.fb.completes_iff.mpr hdone
    rw [hc] at hmode
    obtain ⟨hreturned, hevents⟩ := hcomplete hc
    refine ⟨hmode, fun hfails => ?_, fun hpasses => ?_⟩
    · have hrejected := (frameAccepted_eq_false_iff s.cfg t.fb).mpr hfails
      rw [flushCount_of_rejected hrejected] at hreturned
      rw [flushEvents_of_rejected hrejected] at hevents
      exact ⟨hreturned, hevents⟩
    · have haccepted := (frameAccepted_iff_check_passes s.cfg t.fb).mpr hpasses
      rw [flushCount_of_accepted haccepted, ← framePayload_length] at hreturned
      rw [flushEvents_of_accepted haccepted] at hevents
      exact ⟨hreturned, hevents⟩

/-- Settles O12: a completing step hands out what the flush of the rejected frame does. -/
theorem rejectedFrameIsSilent : Obligations.RejectedFrameIsSilent := by
  intro i b s t hi hm hexec hdone hcrc hwrong
  obtain ⟨hb, sync, haccept⟩ := exec_of_carriesBit hi
  rw [haccept] at hexec
  have hc : t.fb.completes = true := t.fb.completes_iff_length.mpr hdone
  obtain ⟨-, hmode⟩ := accept_assembling_eq_next hb hexec hm
  rw [hc] at hmode
  obtain ⟨hreturned, hevents⟩ := (accept_assembling_outputs hb hexec hm).2 hc
  have hrejected := (frameAccepted_eq_false_iff s.cfg t.fb).mpr ⟨hcrc, hwrong⟩
  rw [flushCount_of_rejected hrejected] at hreturned
  refine ⟨hmode, hreturned, ?_, fun hv => ?_, fun hv => ?_, (accept_outputs hb hexec).1⟩
  · rw [hevents, messagesOffered_flushEvents, hrejected]; rfl
  · rw [hevents, flushEvents_of_rejected hrejected, hv]; rfl
  · rw [hevents, flushEvents_of_rejected hrejected, hv]; rfl

/-- Settles O23: the evaluation's flush is `FA.FLUSH`'s, and the mode is all that it adds. -/
theorem completingFlushesAndGoesIdle : Obligations.CompletingFlushesAndGoesIdle := by
  intro s hdone hin
  refine ⟨_, exec_faFlush_of_inside hin,
    exec_faEvalCompletion_of_complete (s.fb.completes_iff.mpr hdone) hin, rfl, ?_⟩
  rw [← payloadEnd_eq]
  exact (flushCount_eq_zero_or s.cfg s.fb).imp (congrArg _) (congrArg _)

/-- Settles O24, by the verdict of the CRC check inside the buffer, and beyond it. -/
theorem flushTracesChecksAndDelivers : Obligations.FlushTracesChecksAndDelivers := by
  intro s last traced payload
  refine ⟨fun hin hcrc hwrong => ?_, fun hin hpasses => ?_, exec_faFlush_of_outside⟩
  · have hrejected := (frameAccepted_eq_false_iff s.cfg s.fb).mpr ⟨hcrc, hwrong⟩
    rw [exec_faFlush_of_inside hin, flushCount_of_rejected hrejected, flushEvents_of_rejected hrejected]
  · have haccepted := (frameAccepted_iff s.cfg s.fb).mpr hpasses
    rw [exec_faFlush_of_inside hin, flushCount_of_accepted haccepted, flushEvents_of_accepted haccepted,
      ← framePayload_length, ← List.append_assoc]
    rfl

/-- Settles O22: the evaluation of an open frame. -/
theorem notCompletingReportsZero : Obligations.NotCompletingReportsZero := by
  intro s hnormal hforced
  refine exec_faEvalCompletion_of_open ?_
  rw [← Bool.not_eq_true, s.fb.completes_iff]
  exact not_or.mpr ⟨hnormal, hforced⟩

/-- Settles O7: without the sync flag, `ACCEPT` discards in `Idle`. -/
theorem idleDataUnitIsDiscarded : Obligations.IdleDataUnitIsDiscarded :=
  fun _ _ hf hm => ⟨accept_idle_discard hf hm 0#8, accept_idle_discard hf hm 1#8⟩

/-- Settles O8: the bit is appended to the cleared buffer, which lists it only where it is 1. -/
theorem idleSyncUnitStartsFrame : Obligations.IdleSyncUnitStartsFrame :=
  fun _ _ hf hm => ⟨accept_idle_sync hf hm (.inl rfl), accept_idle_sync hf hm (.inr rfl)⟩

/-- Settles O11: in `Assembling`, `ACCEPT` does not look at its sync flag; marked states stop alike. -/
theorem syncWhileAssemblingIsAnOrdinaryBit : Obligations.SyncWhileAssemblingIsAnOrdinaryBit :=
  fun _ _ _ hm => ⟨accept_assembling_sync hm 0#8 true false, accept_assembling_sync hm 1#8 true false⟩

end Sys2Proof

/-! ### Completion in a well-formed state -/

namespace Sys2Proof.Machine

/-- A known length is in the range a header byte can declare (41_framebuffer.md R125). -/
theorem FrameBuffer.Inv.length_range {crc : Bool} {fb : FrameBuffer} (h : fb.Inv crc) {n : Nat}
    (hn : fb.expectedLen = some n) : 1 ≤ n ∧ n ≤ 257 := by
  have hheader := (fb.bytes.read 0).isLt
  rw [h.length_declared n hn]
  split <;> omega

/-- A normal completion is at the last byte of the declared length (42_assembler.md R160, R174). -/
theorem FrameBuffer.Inv.byteCursor_of_normalCompletion {crc : Bool} {fb : FrameBuffer} (h : fb.Inv crc)
    (hc : fb.normalCompletion = true) : fb.byteCursor = (fb.bytes.read 0).toNat + (if crc then 1 else 0) := by
  obtain ⟨-, n, hn, -, hcursor⟩ := fb.normalCompletion_iff.mp hc
  rw [hcursor, h.length_declared n hn, Nat.add_sub_cancel]

/-- An append to an open frame reaches byte 2047 only where the declared length is 1, the one length that is over before it
is known (42_assembler.md R175). -/
theorem FrameBuffer.Open.expectedLen_of_forced {crc : Bool} {fb : FrameBuffer} (ho : fb.Open) (h : fb.Inv crc)
    {bit : Byte} (hinv : (appended crc bit fb).Inv crc) (hc : (appended crc bit fb).forcedCompletion = true) :
    (appended crc bit fb).expectedLen = some 1 := by
  rw [FrameBuffer.forcedCompletion_iff] at hc
  obtain ⟨n, hn⟩ := Option.isSome_iff_exists.mp ((ho.appended_known_iff crc bit).mpr (by omega))
  obtain ⟨-, hmax⟩ := hinv.length_range hn
  by_cases h1 : n = 1
  · rw [hn, h1]
  · have := ho.appended_within h bit hn h1
    omega

end Sys2Proof.Machine

namespace Sys2Proof

open Machine

/-- Settles O40: a normal completion is at byte 256 at most, a forced one at byte 2047. -/
theorem atMostOneCompletionCondition : Obligations.AtMostOneCompletionCondition := by
  rintro s hinv ⟨hnormal, hforced⟩
  have hcursor := hinv.buffer.byteCursor_of_normalCompletion hnormal
  have hheader := (s.fb.bytes.read 0).isLt
  rw [FrameBuffer.forcedCompletion_iff] at hforced
  split at hcursor <;> omega

/-- Settles O41: a forced completion has the declared length 1, which leaves 0 for the header and for the CRC byte. -/
theorem forcedCompletionOnlyForHeaderZeroWithoutCrc : Obligations.ForcedCompletionOnlyForHeaderZeroWithoutCrc := by
  intro u s t hinv hm hexec hforced
  rw [exec_decodeUnit] at hexec
  have hb := bitByte_is_bit (unitV u)
  obtain ⟨hcfg, -⟩ := accept_frame hb hexec
  obtain ⟨hfb, -⟩ := accept_assembling_eq_next hb hexec hm
  have hbuffer := (accept_inv hinv hb hexec).buffer
  rw [hcfg] at hbuffer
  have hone : t.fb.expectedLen = some 1 := by
    rw [hfb] at hbuffer hforced ⊢
    exact (hinv.open_frame hm).expectedLen_of_forced hinv.buffer hbuffer hforced
  have hdeclared := hbuffer.length_declared 1 hone
  cases hcrc : crcEnabled s.cfg with
  | true => simp [hcrc] at hdeclared
  | false => exact ⟨rfl, BitVec.eq_of_toNat_eq (by simpa [hcrc] using hdeclared), hone⟩

/-- Settles O42: the step hands out what the flush does, and the flush's payload ends where the header says. -/
theorem normalCompletionDeliversTheDeclaredPayload : Obligations.NormalCompletionDeliversTheDeclaredPayload := by
  intro u s t hinv hm hexec hnormal
  rw [exec_decodeUnit] at hexec
  have hb := bitByte_is_bit (unitV u)
  have hc : t.fb.completes = true := Bool.or_eq_true_iff.mpr (.inl hnormal)
  obtain ⟨hcfg, -⟩ := accept_frame hb hexec
  obtain ⟨-, hmode⟩ := accept_assembling_eq_next hb hexec hm
  rw [hc] at hmode
  obtain ⟨hreturned, hevents⟩ := (accept_assembling_outputs hb hexec hm).2 hc
  have hcursor := (accept_inv hinv hb hexec).buffer.byteCursor_of_normalCompletion hnormal
  rw [hcfg] at hcursor
  refine ⟨hmode, hcursor, fun hfails => ?_, fun hpasses => ?_⟩
  · have hrejected := (frameAccepted_eq_false_iff s.cfg t.fb).mpr hfails
    rw [hevents, messagesOffered_flushEvents, hreturned, flushCount_of_rejected hrejected, hrejected]
    exact ⟨rfl, rfl⟩
  · have haccepted := (frameAccepted_iff_check_passes s.cfg t.fb).mpr hpasses
    have hend : payloadEnd s.cfg t.fb = (t.fb.bytes.read 0).toNat := by
      rw [payloadEnd_eq, hcursor]
      split <;> rfl
    rw [hevents, messagesOffered_flushEvents, hreturned, flushCount_of_accepted haccepted, if_pos haccepted,
      framePayload, hend]
    exact ⟨rfl, rfl⟩

end Sys2Proof

/-! ### The sink's own operations -/

namespace Sys2Proof.Machine

/-- The one event an operation emits from its start is all that it hands over; it writes no field of `S`
(20_memory.md R58). -/
theorem State.begin_emit (s : State) (e : Event) :
    s.begin.emit e = { s with returned := .nothing, events := [e], sent := s.sent ++ [e] } := rfl

/-- `SINK.DELIVER` as the machine runs it (43_framesink.md R191). -/
theorem exec_sinkDeliver (payload : List Byte) (s : State) :
    exec (.sinkDeliver payload) s =
      .next { s with returned := .nothing, events := [.deliver payload], sent := s.sent ++ [.deliver payload] } :=
  congrArg Host.Outcome.next (s.begin_emit (.deliver payload))

/-- `TRACE.EMIT` as the machine runs it (43_framesink.md R194). -/
theorem exec_traceEmit (bytes : List Byte) (s : State) :
    exec (.traceEmit bytes) s =
      .next { s with returned := .nothing, events := [.trace bytes], sent := s.sent ++ [.trace bytes] } :=
  congrArg Host.Outcome.next (s.begin_emit (.trace bytes))

end Sys2Proof.Machine

namespace Sys2Proof

open Machine

/-- Settles O25: each of the two operations is one emission from the start of an operation. -/
theorem emissionsAppendOneEvent : Obligations.EmissionsAppendOneEvent :=
  fun bytes s => ⟨exec_sinkDeliver bytes s, exec_traceEmit bytes s⟩

end Sys2Proof

/-! ### Streams of units from a well-formed state -/

namespace Sys2Proof.Machine

/-- In a well-formed state every `ACCEPT` goes on: an open frame has room for another bit (41_framebuffer.md R128,
60_exceptions.md R210). -/
theorem State.Inv.accept_goes_on {s : State} (h : s.Inv) {bit : Byte} (hb : bit = 0#8 ∨ bit = 1#8) (sync : Bool) :
    ∃ t, accept bit sync s = .next t := by
  cases hm : s.mode with
  | idle =>
    cases sync with
    | false => exact ⟨_, accept_idle_discard h.unmarked hm bit⟩
    | true => exact ⟨_, accept_idle_sync h.unmarked hm hb⟩
  | assembling => exact accept_assembling_goes_on h.unmarked hm hb sync ((h.open_frame hm).room h.buffer)

/-- In a well-formed state every unit goes on, to a well-formed state. -/
theorem State.Inv.exec_unit {s : State} (h : s.Inv) (u : Byte) : ∃ t, exec (decodeUnit u) s = .next t ∧ t.Inv := by
  have hb := bitByte_is_bit (unitV u)
  obtain ⟨t, ht⟩ := h.accept_goes_on hb (unitS u)
  exact ⟨t, (exec_decodeUnit u s).trans ht, accept_inv h hb ht⟩

/-- From a well-formed state every batch of units ends, in a well-formed state. -/
theorem State.Inv.runBatch_ends {s : State} (h : s.Inv) (us : List Byte) :
    ∃ t n, runBatch us s = .next (t, n) ∧ t.Inv := by
  induction us generalizing s with
  | nil => exact ⟨s, 0, runBatch_nil_of_unmarked h.unmarked, h⟩
  | cons u us ih =>
    obtain ⟨s₁, hstep, hinv⟩ := h.exec_unit u
    obtain ⟨t, n, hrest, ht⟩ := ih hinv
    exact ⟨t, _, runBatch_cons_of hstep hrest, ht⟩

end Sys2Proof.Machine

namespace Sys2Proof

open Machine

/-- Settles O39: the batch ends well-formed, which holds the mark and the cursor bound. -/
theorem noUnitStreamFaults : Obligations.NoUnitStreamFaults := by
  intro us s h
  obtain ⟨t, n, hrun, ht⟩ := h.runBatch_ends us
  exact ⟨t, n, hrun, ht, ht.unmarked, ht.buffer.byte_range⟩

end Sys2Proof

/-! ### The labels of steps -/

namespace Sys2Proof.Machine

/-- The trace of a flush of this buffer: the whole of it when verbose (42_assembler.md R166). -/
def flushTraceEvents (cfg : Byte) (fb : FrameBuffer) : List Event :=
  if verbose cfg then [.trace (fb.bytes.span 0 (fb.byteCursor + 1))] else []

/-- The row of a label in the table of 60_exceptions.md R212: what it tells of the state the step leaves. A well-formed
state has no step with the label of the last row (42_assembler.md R175). -/
def StepLabel.Tells (cfg : Byte) (t : State) : StepLabel → Prop
  | .discard => t.mode = .idle ∧ t.returned = .count 0 ∧ t.events = []
  | .start => t.mode = .assembling ∧ t.returned = .count 0 ∧ t.events = []
  | .continue => t.mode = .assembling ∧ t.returned = .count 0 ∧ t.events = []
  | .accepted => t.mode = .idle ∧ t.fb.normalCompletion = true ∧ t.returned = .count (t.fb.bytes.read 0).toNat ∧
      t.events = flushTraceEvents cfg t.fb ++ [.deliver (t.fb.bytes.span 1 (t.fb.bytes.read 0).toNat)]
  | .rejected => t.mode = .idle ∧ t.fb.normalCompletion = true ∧ t.returned = .count 0 ∧
      t.events = flushTraceEvents cfg t.fb
  | .forcedAccepted => t.mode = .idle ∧ t.fb.forcedCompletion = true ∧ t.returned = .count 2047 ∧
      t.events = flushTraceEvents cfg t.fb ++ [.deliver (t.fb.bytes.span 1 2047)]
  | .forcedRejected => False

/-- The label of an `Assembling` step by the buffer it leaves. -/
def frameLabel (cfg : Byte) (fb : FrameBuffer) : StepLabel :=
  if fb.normalCompletion then if frameAccepted cfg fb then .accepted else .rejected
  else if fb.forcedCompletion then if frameAccepted cfg fb then .forcedAccepted else .forcedRejected
  else .continue

theorem stepLabel_of_idle {s : State} (hm : s.mode = .idle) (bit : Byte) (sync : Bool) :
    stepLabel bit sync s = if sync then .start else .discard := by
  simp only [stepLabel, hm]

theorem stepLabel_of_assembling {s : State} (hm : s.mode = .assembling) (bit : Byte) (sync : Bool) :
    stepLabel bit sync s = frameLabel s.cfg (appended (crcEnabled s.cfg) bit s.fb) := by
  simp only [stepLabel, hm, frameLabel]

theorem frameLabel_ne_discard (cfg : Byte) (fb : FrameBuffer) : frameLabel cfg fb ≠ .discard := by
  unfold frameLabel
  split_ifs <;> simp

theorem frameLabel_ne_start (cfg : Byte) (fb : FrameBuffer) : frameLabel cfg fb ≠ .start := by
  unfold frameLabel
  split_ifs <;> simp

/-- Only a step in `Idle` without sync discards (60_exceptions.md R212). -/
theorem stepLabel_eq_discard_iff (bit : Byte) (sync : Bool) (s : State) :
    stepLabel bit sync s = .discard ↔ s.mode = .idle ∧ sync = false := by
  cases hm : s.mode with
  | idle => cases sync <;> simp [stepLabel_of_idle hm]
  | assembling => simp [stepLabel_of_assembling hm, frameLabel_ne_discard]

/-- Only a step in `Idle` with sync starts a frame (60_exceptions.md R212). -/
theorem stepLabel_eq_start_iff (bit : Byte) (sync : Bool) (s : State) :
    stepLabel bit sync s = .start ↔ s.mode = .idle ∧ sync = true := by
  cases hm : s.mode with
  | idle => cases sync <;> simp [stepLabel_of_idle hm]
  | assembling => simp [stepLabel_of_assembling hm, frameLabel_ne_start]

/-- The payload of a normal completion is the one the header declares (42_assembler.md R170, R174). -/
theorem FrameBuffer.Inv.payloadEnd_of_normalCompletion {cfg : Byte} {fb : FrameBuffer} (h : fb.Inv (crcEnabled cfg))
    (hc : fb.normalCompletion = true) : payloadEnd cfg fb = (fb.bytes.read 0).toNat := by
  rw [payloadEnd_eq, h.byteCursor_of_normalCompletion hc]
  split <;> rfl

/-- A step in `Idle` leaves what its label tells (60_exceptions.md R212). -/
theorem stepLabel_tells_of_idle {bit : Byte} (hb : bit = 0#8 ∨ bit = 1#8) {sync : Bool} {s t : State}
    (h : accept bit sync s = .next t) (hm : s.mode = .idle) : (stepLabel bit sync s).Tells s.cfg t := by
  obtain ⟨hf, -⟩ := accept_eq_next hb h
  rw [stepLabel_of_idle hm]
  cases sync with
  | false => rw [accept_idle_discard hf hm] at h; cases h; exact ⟨hm, rfl, rfl⟩
  | true => rw [accept_idle_sync hf hm hb] at h; cases h; exact ⟨rfl, rfl, rfl⟩

section

variable {cfg : Byte} {t : State} (hmode : t.mode = .idle) (hreturned : t.returned = .count (flushCount cfg t.fb))
  (hevents : t.events = flushEvents cfg t.fb)

include hmode hreturned hevents

/-- After the flush of a normal completion the verdict of the CRC check is the label (60_exceptions.md R212). -/
theorem frameLabel_tells_of_normal (hn : t.fb.normalCompletion = true)
    (hend : payloadEnd cfg t.fb = (t.fb.bytes.read 0).toNat) : (frameLabel cfg t.fb).Tells cfg t := by
  rw [frameLabel, if_pos hn]
  cases ha : frameAccepted cfg t.fb with
  | true =>
    rw [flushCount_of_accepted ha, hend] at hreturned
    rw [flushEvents_of_accepted ha, framePayload, hend] at hevents
    exact ⟨hmode, hn, hreturned, hevents⟩
  | false =>
    rw [flushCount_of_rejected ha] at hreturned
    rw [flushEvents_of_rejected ha] at hevents
    exact ⟨hmode, hn, hreturned, hevents⟩

/-- After the flush of a forced completion with CRC disabled the whole buffer is accepted (42_assembler.md R176). -/
theorem frameLabel_tells_of_forced (hn : t.fb.normalCompletion = false) (hfc : t.fb.forcedCompletion = true)
    (hcrc : crcEnabled cfg = false) : (frameLabel cfg t.fb).Tells cfg t := by
  have hlast := t.fb.forcedCompletion_iff.mp hfc
  rw [frameLabel, hn, hfc, frameAccepted_of_crc_disabled hcrc]
  rw [flushCount_of_crc_disabled hcrc, hlast] at hreturned
  rw [flushEvents_of_crc_disabled hcrc, hlast] at hevents
  exact ⟨hmode, hfc, hreturned, by rw [hevents, flushTraceEvents, hlast]⟩

end

/-- In a well-formed state a unit in `Assembling` leaves what its label tells (60_exceptions.md R212). -/
theorem State.Inv.frameLabel_tells {s t : State} (hinv : s.Inv) (hm : s.mode = .assembling) {u : Byte}
    (h : exec (decodeUnit u) s = .next t) : (frameLabel s.cfg t.fb).Tells s.cfg t := by
  have hb := bitByte_is_bit (unitV u)
  have haccept := (exec_decodeUnit u s).symm.trans h
  obtain ⟨-, hmode⟩ := accept_assembling_eq_next hb haccept hm
  obtain ⟨hopen, hcomplete⟩ := accept_assembling_outputs hb haccept hm
  obtain ⟨hcfg, -⟩ := accept_frame hb haccept
  cases hc : t.fb.completes with
  | false =>
    obtain ⟨hn, hfc⟩ := Bool.or_eq_false_iff.mp hc
    rw [hc] at hmode
    rw [frameLabel, hn, hfc]
    exact ⟨hmode, hopen hc⟩
  | true =>
    obtain ⟨hreturned, hevents⟩ := hcomplete hc
    rw [hc] at hmode
    cases hn : t.fb.normalCompletion with
    | true =>
      have hbuffer := (accept_inv hinv hb haccept).buffer
      rw [hcfg] at hbuffer
      exact frameLabel_tells_of_normal hmode hreturned hevents hn (hbuffer.payloadEnd_of_normalCompletion hn)
    | false =>
      have hfc : t.fb.forcedCompletion = true := (Bool.or_eq_true_iff.mp hc).resolve_left (by simp [hn])
      obtain ⟨hcrc, -⟩ := forcedCompletionOnlyForHeaderZeroWithoutCrc u s t hinv hm h hfc
      exact frameLabel_tells_of_forced hmode hreturned hevents hn hfc hcrc

/-- In a well-formed state a unit leaves what its label tells (60_exceptions.md R212). -/
theorem State.Inv.stepLabel_tells {s t : State} (hinv : s.Inv) {u : Byte} (h : exec (decodeUnit u) s = .next t) :
    (stepLabel (unitBit u) (unitSync u) s).Tells s.cfg t := by
  have hb := bitByte_is_bit (unitV u)
  have haccept := (exec_decodeUnit u s).symm.trans h
  rw [unitBit_eq_bitByte, unitSync_eq_unitS]
  cases hm : s.mode with
  | idle => exact stepLabel_tells_of_idle hb haccept hm
  | assembling =>
    rw [stepLabel_of_assembling hm, ← (accept_assembling_eq_next hb haccept hm).1]
    exact hinv.frameLabel_tells hm h

end Sys2Proof.Machine

namespace Sys2Proof

open Machine

/-- Settles O13: the unit goes on, and each row is what its label tells. -/
theorem stepLabelTellsTheOutcome : Obligations.StepLabelTellsTheOutcome := by
  intro u s hinv
  obtain ⟨t, hstep, -⟩ := hinv.exec_unit u
  have hrow : ∀ label, stepLabel (unitBit u) (unitSync u) s = label → label.Tells s.cfg t := by
    rintro _ rfl
    exact hinv.stepLabel_tells hstep
  exact ⟨t, hstep, stepLabel_eq_discard_iff _ _ _, stepLabel_eq_start_iff _ _ _, hrow .discard, hrow .start,
    hrow .continue, hrow .accepted, hrow .rejected, hrow .forcedAccepted, hrow .forcedRejected⟩

end Sys2Proof

/-! ### The fault mark -/

namespace Sys2Proof.Machine

theorem State.mark_of_unmarked {s : State} (h : s.fault = none) (m : FaultMark) :
    s.mark m = { s with fault := some m } := by
  simp [State.mark, h]

/-- An append that raises leaves the mark it adds, or the one there was (60_exceptions.md R213). -/
theorem appendBit_eq_raised {bit : Byte} {s t : State} (h : appendBit bit s = .fault (.raised t)) :
    ∃ m, t.fault = (s.mark m).fault := by
  rcases appendBit_cases bit s with ⟨-, e⟩ | ⟨-, -, e⟩ | ⟨-, -, e⟩ <;> rw [e] at h <;> cases h
  · exact ⟨_, rfl⟩
  · exact ⟨_, rfl⟩

theorem accept_eq_raised {bit : Byte} (hb : bit = 0#8 ∨ bit = 1#8) {sync : Bool} {s t : State}
    (h : accept bit sync s = .fault (.raised t)) : ∃ m, t.fault = (s.mark m).fault := by
  cases hf : s.fault with
  | some m => rw [accept_of_marked hf] at h; exact nomatch h
  | none =>
    rcases accept_cases hf hb sync with ⟨-, -, e⟩ | ⟨-, -, e⟩ | ⟨-, -, e⟩ | ⟨-, -, -, e⟩ | ⟨-, -, -, e⟩ <;>
      rw [e] at h <;> cases h
    exact ⟨_, (State.mark_fault_of_unmarked hf _).symm⟩

theorem flush_ne_raised (s t : State) : flush s ≠ .fault (.raised t) := by
  by_cases hin : s.fb.byteCursor < 2048
  · rw [flush_of_inside hin]; exact nofun
  · rw [flush_of_outside (by omega)]; exact nofun

theorem evalCompletion_ne_raised (s t : State) : evalCompletion s ≠ .fault (.raised t) := by
  cases hc : s.fb.completes with
  | false => rw [evalCompletion_of_open hc]; exact nofun
  | true =>
    by_cases hin : s.fb.byteCursor < 2048
    · rw [evalCompletion_of_complete hc hin]; exact nofun
    · rw [evalCompletion_of_outside hc (by omega)]; exact nofun

/-- `RESET` goes on or refuses (30_encoding.md R76). -/
theorem exec_reset_ne_fault (cfg : Byte) (s : State) (f : Fault) : exec (.reset cfg) s ≠ .fault f := by
  simp only [exec, execReset]
  split <;> exact nofun

/-- An operation that raises leaves the mark it adds, or the one there was (60_exceptions.md R213). -/
theorem exec_eq_raised {i : Instr} {s t : State} (h : exec i s = .fault (.raised t)) :
    ∃ m, t.fault = (s.mark m).fault := by
  cases i with
  | acceptD0 | acceptS0 => exact accept_eq_raised (.inl rfl) h
  | acceptD1 | acceptS1 => exact accept_eq_raised (.inr rfl) h
  | fbAppendBit bit => exact appendBit_eq_raised (s := s.begin) h
  | faEvalCompletion => exact absurd h (evalCompletion_ne_raised s.begin t)
  | faFlush => exact absurd h (flush_ne_raised s.begin t)
  | reset cfg => exact absurd h (exec_reset_ne_fault cfg s _)
  | crc8Update | crc8Run | fbReset | fbCurrentLength | fbIsHeaderKnown | sinkDeliver | traceEmit => exact nomatch h

/-- Among the operations that go on only `RESET` changes the mark (60_exceptions.md R213). -/
theorem exec_fault_of_not_isReset {i : Instr} (hr : ¬ isReset i) {s t : State} (h : exec i s = .next t) :
    t.fault = s.fault := by
  by_cases ha : isAccept i
  · obtain ⟨bit, sync, hb, -, -, hexec⟩ := exec_of_isAccept ha
    rw [hexec] at h
    obtain ⟨-, -, hfault, -⟩ := accept_frame hb h
    exact hfault
  · obtain ⟨⟨-, -, hfault, -⟩, -⟩ := exec_internal_frame ha hr h
    exact hfault

/-- A marked state has no `ACCEPT` step (60_exceptions.md R213; log entry 7). -/
theorem exec_isAccept_of_marked {i : Instr} (hi : isAccept i) {s : State} {m : FaultMark} (h : s.fault = some m) :
    exec i s = .fault (.marked m) := by
  obtain ⟨bit, sync, -, -, -, hexec⟩ := exec_of_isAccept hi
  rw [hexec]
  exact accept_of_marked h bit sync

/-- No operation goes on from an unmarked state to a marked one (60_exceptions.md R213). -/
theorem exec_next_unmarked {i : Instr} {s t : State} (hf : s.fault = none) (h : exec i s = .next t) :
    t.fault = none := by
  by_cases hr : isReset i
  · obtain ⟨cfg, rfl⟩ := hr
    obtain ⟨-, rfl⟩ := exec_reset_eq_next h
    rfl
  · exact (exec_fault_of_not_isReset hr h).trans hf

/-- No step goes on to a marked state, from whatever state: a unit's step starts unmarked, a reset clears the mark
(60_exceptions.md R213). -/
theorem step_next_unmarked {s t : State} (h : step s = .next t) : t.fault = none := by
  obtain ⟨u, rest, -, hs⟩ | ⟨cfg, rest, -, -, rfl⟩ := step_eq_next h
  · have hb := bitByte_is_bit (unitV u)
    obtain ⟨hf, -⟩ := accept_eq_next hb hs
    obtain ⟨-, -, hfault, -⟩ := accept_frame hb hs
    exact hfault.trans hf
  · rfl

/-- A run that goes on takes its first step, then the rest. -/
theorem run_succ_eq_next {M : Host.Core} {k : Nat} {s t : M.State} (h : M.run (k + 1) s = .next t) :
    ∃ s₁, M.step s = .next s₁ ∧ M.run k s₁ = .next t := by
  rw [Host.Core.run] at h
  cases hs : M.step s with
  | next s₁ => rw [hs] at h; exact ⟨s₁, rfl, h⟩
  | fault r => rw [hs] at h; exact nomatch h
  | refused r => rw [hs] at h; exact nomatch h

/-- A run of the machine of at least one step ends unmarked, by its last step. -/
theorem run_next_unmarked {k : Nat} {s t : State} (h : Host.Core.run Sys2Proof.core (k + 1) s = .next t) :
    t.fault = none := by
  induction k generalizing s with
  | zero =>
    obtain ⟨s₁, hstep, hend⟩ := run_succ_eq_next h
    cases hend
    exact step_next_unmarked hstep
  | succ k ih =>
    obtain ⟨s₁, -, hrest⟩ := run_succ_eq_next h
    exact ih hrest

theorem runBatch_next_unmarked {us : List Byte} {s t : State} {n : Nat} (h : runBatch us s = .next (t, n)) :
    t.fault = none := by
  induction us generalizing s n with
  | nil =>
    obtain ⟨rfl, -, hf⟩ := runBatch_nil_eq_next h
    exact hf
  | cons u us ih =>
    obtain ⟨s₁, k, -, hrest, -⟩ := runBatch_cons_eq_next h
    exact ih hrest

theorem runInstrs_next_unmarked {is : List Instr} {s t : State} (h : runInstrs is s = .next t) : t.fault = none := by
  induction is generalizing s with
  | nil =>
    obtain ⟨rfl, hf⟩ := State.final_eq_next h
    exact hf
  | cons i is ih =>
    obtain ⟨s₁, -, hrest⟩ := runInstrs_cons_eq_next h
    exact ih hrest

/-- A marked state that is presented a unit stops (60_exceptions.md R213). -/
theorem step_of_unit_marked {s : State} {m : FaultMark} {u : Byte} {rest : List Stimulus}
    (hq : s.inputs = .unit u :: rest) (hf : s.fault = some m) : step s = .fault (.marked m) := by
  rw [step_of_unit hq]
  exact exec_isAccept_of_marked (isAccept_decodeUnit u) hf

/-- `FB.APPEND_BIT` as the machine runs it in an unmarked state on a value that is no bit (60_exceptions.md R214). -/
theorem exec_fbAppendBit_of_bad_bit {bit : Byte} {s : State} (hb : ¬ (bit = 0#8 ∨ bit = 1#8)) (hf : s.fault = none) :
    exec (.fbAppendBit bit) s =
      .fault (.raised { s with fault := some (.badBit bit), returned := .nothing, events := [] }) := by
  have hraise := appendBit_of_bad_bit (s := s.begin) hb
  rw [State.mark_of_unmarked (s := s.begin) hf] at hraise
  exact hraise

/-- `FB.APPEND_BIT` as the machine runs it in an unmarked state without room (60_exceptions.md R215; log entry 10). -/
theorem exec_fbAppendBit_of_no_room {bit : Byte} {s : State} (hb : bit = 0#8 ∨ bit = 1#8)
    (h : 2047 < (advanceByte s.fb).byteCursor) (hf : s.fault = none) :
    exec (.fbAppendBit bit) s =
      .fault (.raised { s with fb := advanceByte s.fb, fault := some (.cursorBound s.pos), returned := .nothing,
                               events := [] }) := by
  have hraise := appendBit_of_no_room (s := s.begin) hb (Nat.not_le.mpr h)
  rw [State.mark_of_unmarked (s := { s.begin with fb := advanceByte s.begin.fb }) hf] at hraise
  exact hraise

/-- An append at the end of the last byte moves past the buffer (41_framebuffer.md R122, R123). -/
theorem advanceByte_of_full {fb : FrameBuffer} (h8 : fb.bitCursor = 8) (hlast : fb.byteCursor = 2047) :
    advanceByte fb = { fb with bitCursor := 0, byteCursor := 2048 } := by
  rw [advanceByte, if_pos h8, hlast]

end Sys2Proof.Machine

namespace Sys2Proof

open Machine

/-- Settles O35: what goes on keeps the mark unless it is `RESET`, and a raise keeps the first mark. -/
theorem faultMarkIsStickyUntilReset : Obligations.FaultMarkIsStickyUntilReset := by
  refine fun m s hf => ⟨fun i hi => exec_isAccept_of_marked hi hf,
    fun i t hr h => (exec_fault_of_not_isReset hr h).trans hf, fun i t h => ?raise, fun cfg hcfg => ?reset⟩
  case raise =>
    obtain ⟨k, hk⟩ := exec_eq_raised h
    exact hk.trans (State.mark_fault_of_marked hf k)
  case reset => exact ⟨_, if_pos hcfg, applyReset_fault _ _⟩

/-- Settles O51: each way to go on or to end leaves no mark, and a marked state has nothing but a reset to go on with. -/
theorem markedStateIsNeverFinal : Obligations.MarkedStateIsNeverFinal := by
  refine ⟨fun _ _ _ => exec_next_unmarked, fun i s t h => ?raise, fun _ _ => step_next_unmarked,
    fun k s t hk h => ?run, fun _ _ _ _ => runBatch_next_unmarked, fun _ _ _ => runInstrs_next_unmarked,
    fun s m hf hq => ?stop⟩
  case raise =>
    obtain ⟨m, hm⟩ := exec_eq_raised h
    exact Option.ne_none_iff_exists'.mp (hm ▸ State.mark_fault_ne_none s m)
  case run =>
    obtain ⟨j, rfl⟩ := Nat.exists_eq_add_of_le' hk
    exact run_next_unmarked h
  case stop =>
    obtain hq | ⟨u, rest, hq⟩ := hq
    · exact step_of_no_input_marked hq hf
    · exact step_of_unit_marked hq hf

/-- Settles O33: the raise marks the state as the operation starts with it. -/
theorem badBitMarksTheState : Obligations.BadBitMarksTheState :=
  fun _ _ h0 h1 hf => exec_fbAppendBit_of_bad_bit (not_or.mpr ⟨h0, h1⟩) hf

/-- Settles O34: the append has no room, on its own and inside the step, and stops with step 1 done. -/
theorem cursorPastTheBufferMarksTheState : Obligations.CursorPastTheBufferMarksTheState := by
  intro i b s hi hf h8 hlast
  obtain ⟨hb, sync, hexec⟩ := exec_of_carriesBit hi
  have hfull := advanceByte_of_full h8 hlast
  have hpast : 2047 < (advanceByte s.fb).byteCursor := by rw [hfull]; exact Nat.lt_succ_self _
  refine ⟨?append, fun hm => ?step⟩
  case append => rw [exec_fbAppendBit_of_no_room hb hpast hf, hfull]
  case step => rw [hexec, accept_assembling_no_room hf hm hb sync hpast, hfull]

end Sys2Proof

/-! ### What the buffer holds in Idle -/

namespace Sys2Proof.Machine

/-- In `Idle` a unit does not read the buffer: a discarded one leaves it as it is, a start fills a cleared one, the same
whatever was there before (42_assembler.md R154, R156, 70_reset_and_hazards.md R242). -/
theorem accept_idle_with_fb {bit : Byte} (hb : bit = 0#8 ∨ bit = 1#8) {sync : Bool} {s t : State} (hm : s.mode = .idle)
    (h : accept bit sync s = .next t) (fb : FrameBuffer) :
    accept bit sync { s with fb := fb } = .next { t with fb := if sync then t.fb else fb } := by
  obtain ⟨hf, -⟩ := accept_eq_next hb h
  cases sync with
  | false =>
    rw [accept_idle_discard hf hm] at h
    cases h
    exact accept_idle_discard (s := { s with fb := fb }) hf hm bit
  | true =>
    rw [accept_idle_sync hf hm hb] at h
    cases h
    exact accept_idle_sync (s := { s with fb := fb }) hf hm hb

/-- From `Idle` a batch ends alike but for the buffer, whatever the buffer held, and with the same buffer too where it ends
within a frame: up to the first start it only carries the buffer along, and from there the two runs are one. -/
theorem runBatch_idle_with_fb {us : List Byte} {s t : State} {n : Nat} (hm : s.mode = .idle)
    (h : runBatch us s = .next (t, n)) (fb : FrameBuffer) :
    ∃ fb', runBatch us { s with fb := fb } = .next ({ t with fb := fb' }, n) ∧ (t.mode = .assembling → fb' = t.fb) := by
  induction us generalizing s n with
  | nil =>
    obtain ⟨rfl, rfl, hf⟩ := runBatch_nil_eq_next h
    exact ⟨fb, runBatch_nil_of_unmarked (s := { t with fb := fb }) hf, fun ha => nomatch hm.symm.trans ha⟩
  | cons u us ih =>
    obtain ⟨s₁, k, hstep, hrest, rfl⟩ := runBatch_cons_eq_next h
    rw [exec_decodeUnit] at hstep
    have hb := bitByte_is_bit (unitV u)
    have hstep' := (exec_decodeUnit u _).trans (accept_idle_with_fb hb hm hstep fb)
    obtain ⟨hmode, -⟩ := accept_idle_eq_next hb hstep hm
    cases hsync : unitS u with
    | false =>
      rw [hsync] at hmode hstep'
      obtain ⟨fb', hrun, hfb⟩ := ih hmode hrest
      exact ⟨fb', runBatch_cons_of (t := { s₁ with fb := fb }) hstep' hrun, hfb⟩
    | true =>
      rw [hsync] at hstep'
      exact ⟨t.fb, runBatch_cons_of hstep' hrest, fun _ => rfl⟩

end Sys2Proof.Machine

namespace Sys2Proof

open Machine

/-- Settles O46: the two runs end in states that differ in the buffer at most. -/
theorem idleBufferCannotBeObserved : Obligations.IdleBufferCannotBeObserved := by
  intro us s t fb n hm hrun
  obtain ⟨fb', hrun', hfb⟩ := runBatch_idle_with_fb hm hrun fb
  exact ⟨_, hrun', rfl, rfl, rfl, rfl, rfl, rfl, rfl, hfb⟩

end Sys2Proof

/-! ### What a batch delivers -/

namespace Sys2Proof.Machine

theorem messagesOffered_append (es fs : List Event) :
    messagesOffered (es ++ fs) = messagesOffered es ++ messagesOffered fs := by
  induction es with
  | nil => rfl
  | cons e es ih =>
    cases e with
    | trace b => exact ih
    | deliver p => exact congrArg (p :: ·) ih

/-- What is delivered later stands after what was delivered before, with no separator (43_framesink.md R193). -/
theorem echoStream_append (es fs : List Event) : echoStream (es ++ fs) = echoStream es ++ echoStream fs := by
  rw [echoStream, messagesOffered_append, List.flatten_append]; rfl

end Sys2Proof.Machine

namespace Sys2Proof

open Machine

/-- Settles O28, by induction over the units: each hands out its own events and counts what they deliver. -/
theorem batchCountIsTheDeliveredLength : Obligations.BatchCountIsTheDeliveredLength := by
  intro us s t n h
  induction us generalizing s n with
  | nil =>
    obtain ⟨rfl, rfl, -⟩ := runBatch_nil_eq_next h
    exact ⟨[], (List.append_nil _).symm, rfl⟩
  | cons u us ih =>
    obtain ⟨s₁, k, hstep, hrest, rfl⟩ := runBatch_cons_eq_next h
    obtain ⟨es, hsent, hk⟩ := ih s₁ k hrest
    have hsent₁ := handedOverEventsAreNeverTakenBack _ s s₁ hstep
    obtain ⟨-, hcount, -⟩ := unitEmitsTraceThenDelivery u s s₁ hstep
    refine ⟨s₁.events ++ es, ?_, ?_⟩
    · rw [hsent, hsent₁, List.append_assoc]
    · rw [hcount, hk, echoStream_append, List.length_append]

end Sys2Proof

/-! ### The bounds of a count -/

namespace Sys2Proof.Machine

/-- A step counts what its label tells: only an accepted forced completion counts more than a header byte can declare
(42_assembler.md R174, R176). -/
theorem StepLabel.Tells.count_le {cfg : Byte} {t : State} {label : StepLabel} (h : label.Tells cfg t) :
    t.count ≤ 255 ∨ label = .forcedAccepted ∧ t.fb.forcedCompletion = true ∧ t.count = 2047 := by
  match label, h with
  | .discard, ⟨_, hreturned, _⟩ | .start, ⟨_, hreturned, _⟩ | .continue, ⟨_, hreturned, _⟩ |
    .rejected, ⟨_, _, hreturned, _⟩ =>
    rw [State.count_of_returned hreturned]
    exact .inl (Nat.zero_le 255)
  | .accepted, ⟨_, _, hreturned, _⟩ =>
    rw [State.count_of_returned hreturned]
    exact .inl (Nat.le_of_lt_succ (t.fb.bytes.read 0).isLt)
  | .forcedAccepted, ⟨_, hforced, hreturned, _⟩ => exact .inr ⟨rfl, hforced, State.count_of_returned hreturned⟩

/-- Only a step in `Assembling` can accept a forced completion (60_exceptions.md R212). -/
theorem assembling_of_stepLabel_forcedAccepted {bit : Byte} {sync : Bool} {s : State}
    (h : stepLabel bit sync s = .forcedAccepted) : s.mode = .assembling := by
  cases hm : s.mode with
  | assembling => rfl
  | idle => rw [stepLabel_of_idle hm] at h; cases sync <;> exact nomatch h

end Sys2Proof.Machine

namespace Sys2Proof

open Machine

/-- Settles O43, by the label of the step: the one that counts more than 255 is a forced completion, which needs CRC
disabled. -/
theorem producedCountIsBounded : Obligations.ProducedCountIsBounded := by
  intro u s t hinv h
  obtain hle | ⟨hlabel, hforced, hcount⟩ := (hinv.stepLabel_tells h).count_le
  · exact ⟨fun _ => hle, hle.trans (by decide)⟩
  · have hm := assembling_of_stepLabel_forcedAccepted hlabel
    obtain ⟨hcrc, -⟩ := forcedCompletionOnlyForHeaderZeroWithoutCrc u s t hinv hm h hforced
    exact ⟨(fun henabled => nomatch hcrc.symm.trans henabled), hcount.le⟩

end Sys2Proof

/-! ### Reset -/

namespace Sys2Proof.Machine

/-- `RESET` as the machine runs it with a legal configuration (70_reset_and_hazards.md R240, 10_state.md R39; log entry 17). -/
theorem exec_reset_of_legal {cfg : Byte} (h : legalCfg cfg = true) (s : State) :
    exec (.reset cfg) s =
      .next { cfg := cfg, mode := .idle, fb := FrameBuffer.cleared, pos := 0, fault := none, inputs := s.inputs,
              returned := .nothing, events := [], sent := s.sent } :=
  if_pos h

end Sys2Proof.Machine

namespace Sys2Proof

open Machine

/-- Settles O30: the four words are the legal ones. -/
theorem resetPutsEveryFieldAtItsResetValue : Obligations.ResetPutsEveryFieldAtItsResetValue := by
  intro cfg s hlisted
  have hlegal : legalCfg cfg = true := by
    rw [legalCfg_iff_listed]
    simpa [legalCfgWords] using hlisted
  exact exec_reset_of_legal hlegal s

end Sys2Proof
